-- ==== Sys2Proof/Word.lean ====
section
/-!
DEFINITION. The bytes and the 4-byte words the block hands to the transport (rules R5, R6, R50, R52).
-/

namespace Sys2Proof

/-- One 8-bit byte: a colour channel (rule R5) or a byte on the bus. -/
abbrev Byte := BitVec 8

/-- Format W32 (rule R50): four bytes in the order they are handed to the transport, `b0` first. -/
structure Word where
  b0 : Byte
  b1 : Byte
  b2 : Byte
  b3 : Byte
deriving DecidableEq, Repr

/-- The bytes of a word in transport order: `B0, B1, B2, B3` (rule R33). -/
def Word.bytes (w : Word) : List Byte := [w.b0, w.b1, w.b2, w.b3]

end Sys2Proof
end

