-- ==== Sys2Proof/Config.lean ====
section
/-!
DEFINITION. What an implementation of the block fixes: the parameter table of spec/00_scope.md (rules R5 to R9), and the
opaque tokens the block passes on without looking inside (the transport handle, rule R12; error values, rule R7).
-/

namespace Sys2Proof

/-- The type of transport error values at which the host runs the machine. The spec's `E` (rule R7) is a type argument of
`Over.State` and of every operation and meaning; this is only the argument that `exec`, `step` and `State.reset` take for it,
since the host asks for one type of comparable states. DESIGN CHOICE (assumption 1). -/
structure ErrVal where
  token : Nat
deriving DecidableEq, Repr

/-- The transport handle (rule R12): an opaque token. DESIGN CHOICE (assumption 2): tokens are natural numbers; no
operation looks at `token`. -/
structure Handle where
  token : Nat
deriving DecidableEq, Repr

namespace Config

/-- `MAX_CLOCK_HZ` (rules R9, R17): an advisory, hard-wired constant that no operation reads. -/
def maxClockHz : Nat := 15000000

/-- `MAX_CHAIN` (rule R8): the largest accepted chain length. `none` is unbounded, the value for this hardware, so no
operation checks it. DEDUCED (assumption 17). -/
def maxChain : Option Nat := none

/-- `WRITE_BYTES`, `FRAME_BYTES` and `MARKER_BYTES` (rules R6, R34): every write, frame and marker is four bytes. -/
def writeBytes : Nat := 4

/-- `MARKER_BYTE` (rule R6): the value of every byte of a start or end marker. -/
def markerByte : Byte := 0x00#8

/-- Which bytes of a word that waits for its answer have reached the transport: bit `i` is set when byte `B<i>` has. Not
specified (rule R83): a FREE VALUE, one for each draw, that nothing constrains. DESIGN CHOICE (assumption 8). -/
opaque unansweredBytes : Nat → BitVec 4

/-- The handle bound in `State.reset`. DESIGN CHOICE (assumption 2): the spec says only "the transport supplied with the
reset" (rule R23). -/
def resetHandle : Handle := ⟨0⟩

end Config
end Sys2Proof
end

