-- ==== Sys2Proof/Syntax.lean ====
section
/-!
DEFINITION. The operations of the block, one constructor per row of the operation map (rule R61), and the shapes in which
they travel over the block's ports (rules R50, R56, R58).
-/

namespace Sys2Proof

/-- A ColorTriple (rule R5): three independent channels. -/
structure ColorTriple where
  r : Byte
  g : Byte
  b : Byte
deriving DecidableEq, Repr

/-- The closed set of operations of rule R61. -/
inductive Instr where
  /-- START (rule R51): the MARKER word at word index 0 of a transaction is emitted. -/
  | start
  /-- FRAME (rule R52): a FRAME word is emitted; the operands are the word's fields `nb`, `ng`, `nr`, blue, green, red. -/
  | frame (nb ng nr : BitVec 2) (b g r : Byte)
  /-- END (rule R51): the MARKER word at word index N+1 of a transaction is emitted. -/
  | endMarker
  /-- ENCODE_DEVICE_FRAME r, g, b (rule R70). -/
  | encodeDeviceFrame (r g b : Byte)
  /-- ENCODE_TRANSACTION colors (rule R72). -/
  | encodeTransaction (colors : List ColorTriple)
  /-- NEW transport (rule R80). -/
  | new (transport : Handle)
  /-- SET_COLORS colors (rule R81). -/
  | setColors (colors : List ColorTriple)
  /-- WRITE_STEP (rule R82): the sequencer's micro-step. -/
  | writeStep
  /-- SET_COLOR r, g, b (rule R84): another way to write SET_COLORS with one triple. -/
  | setColor (r g b : Byte)
  /-- RELEASE (rule R85). -/
  | release
  /-- TRANSMIT [B0,B1,B2,B3] (rule R31): the transport call that carries this word. -/
  | transmit (w : Word)
deriving DecidableEq, Repr

/-- What a host offers the controller (rule R50): the reset event RST, or a CMD record (rule R56: `op`, `n`, and the colours
packed in 24 bits). DESIGN CHOICE (assumption 13): a CMD is a record, never a string of bits. -/
inductive Offer where
  | rst (transport : Handle)
  | cmd (op : BitVec 1) (n : Nat) (colors : List (BitVec 24))
deriving DecidableEq, Repr

/-- Where a W32 word stands in its transaction. Rule R51: the two markers differ only in position. -/
inductive WordPos where
  | first
  | later
deriving DecidableEq, Repr

/-- An operation in the form in which it travels: as an offer to the controller, as an input of port ENC (rule R58), as a
word of a transaction whose position is known (rules R51, R55), or as the argument of a transport call on channel `tx`
(rule R31). -/
inductive Packet where
  | offer (o : Offer)
  | enc (encIn : BitVec 24)
  | w32 (pos : WordPos) (w : Word)
  | tx (w : Word)
deriving DecidableEq, Repr

end Sys2Proof
end

