-- ==== Sys2Proof/WellFormed.lean ====
section
/-!
DEFINITION. Which operations are well formed: the prefix fields of a FRAME word are not free (rule R52), and a transport
call carries a START, FRAME or END word (rules R50, R59).
-/

namespace Sys2Proof

/-- The complement of a channel's top two bits, `~v[7:6]` (rule R52, fields `nb`, `ng`, `nr`). -/
def topComplement (v : Byte) : BitVec 2 := ~~~(v.extractLsb' 6 2)

/-- The fields `nb`, `ng`, `nr` are the ones the colour bytes determine (rule R52). -/
def frameFieldsOk (nb ng nr : BitVec 2) (b g r : Byte) : Bool :=
  nb == topComplement b && ng == topComplement g && nr == topComplement r

/-- A MARKER word: all 32 bits are 0 (rule R51). -/
def Word.isMarker (w : Word) : Bool :=
  w == ⟨Config.markerByte, Config.markerByte, Config.markerByte, Config.markerByte⟩

/-- A FRAME word: field `one` is 0b11 and the other prefix fields are determined by the colour bytes (rule R52). -/
def Word.isFrame (w : Word) : Bool :=
  w.b0.extractLsb' 6 2 == 3#2 &&
    frameFieldsOk (w.b0.extractLsb' 4 2) (w.b0.extractLsb' 2 2) (w.b0.extractLsb' 0 2) w.b1 w.b2 w.b3

/-- One of the 2^24 + 1 words the block can emit (rule R59). -/
def Word.emittable (w : Word) : Bool := w.isMarker || w.isFrame

/-- Well-formed operations. Nothing a host offers is ill formed (rule R59). -/
def Instr.wellFormed : Instr → Bool
  | .start => true
  | .frame nb ng nr b g r => frameFieldsOk nb ng nr b g r
  | .endMarker => true
  | .encodeDeviceFrame _ _ _ => true
  | .encodeTransaction _ => true
  | .new _ => true
  | .setColors _ => true
  | .writeStep => true
  | .setColor _ _ _ => true
  | .release => true
  | .transmit w => w.emittable

end Sys2Proof
end

