-- ==== Sys2Proof/Decode.lean ====
section
/-!
DEFINITION. Decoding and encoding: packed colours (rules R56, R58), W32 words (rules R51, R52, R55), CMD records (rule
R56), whole wire streams (rules R32, R54, R55), and the table's bit numbering. Every decoder is total and rejects by name.
-/

namespace Sys2Proof

/-- Why a packet, a word or a stream of bytes is not an operation. -/
inductive DecodeError where
  /-- The first word of a transaction is not the MARKER word (rules R32, R51). -/
  | startExpected
  /-- A non-zero word whose prefix fields are not the ones rule R53 gives: never emitted (rule R59). -/
  | notEmitted
  /-- A CMD record of op 0 whose `n` is not the number of its colours (rule R56). -/
  | lengthMismatch
  /-- A CMD record of op 1 that carries operands; RELEASE has none (rules R56, R85). -/
  | operandsOnRelease
  /-- A stream that ends inside a word (rule R35: words are 4 bytes). -/
  | partialWord
  /-- A stream that ends before the end marker (rule R32). -/
  | endMissing
  /-- Bytes after the end marker of the one transaction read (rule R32). -/
  | bytesAfterEnd
deriving DecidableEq, Repr

/-- A colour in 24 bits: `r` in 23:16, `g` in 15:8, `b` in 7:0 (rules R56, R58). -/
def packColor (c : ColorTriple) : BitVec 24 := c.r ++ c.g ++ c.b

/-- The channels of a 24-bit colour (rules R56, R58). -/
def unpackColor (x : BitVec 24) : ColorTriple :=
  ⟨x.extractLsb' 16 8, x.extractLsb' 8 8, x.extractLsb' 0 8⟩

/-- The 32-bit picture of a word: `B0` is bits 31:24 (spec/00_scope.md section 5). -/
def wordPicture (w : Word) : BitVec 32 := w.b0 ++ w.b1 ++ w.b2 ++ w.b3

/-- The word of a 32-bit picture. -/
def wordOfPicture (x : BitVec 32) : Word :=
  ⟨x.extractLsb' 24 8, x.extractLsb' 16 8, x.extractLsb' 8 8, x.extractLsb' 0 8⟩

/-- The MARKER word (rule R51). -/
def markerWord : Word := ⟨Config.markerByte, Config.markerByte, Config.markerByte, Config.markerByte⟩

/-- The word whose fields, from bit 31 down, are `one` = 0b11, `nb`, `ng`, `nr`, blue, green, red (rule R52). -/
def frameWord (nb ng nr : BitVec 2) (b g r : Byte) : Word := ⟨3#2 ++ nb ++ ng ++ nr, b, g, r⟩

/-- The FRAME operation a word stands for, its fields pulled out at rule R52's bit positions. -/
def frameOfWord (w : Word) : Instr :=
  .frame (w.b0.extractLsb' 4 2) (w.b0.extractLsb' 2 2) (w.b0.extractLsb' 0 2) w.b1 w.b2 w.b3

/-- A word of a transaction (rules R51, R52, R55): content tells MARKER from FRAME, position tells START from END. -/
def decodeWord : WordPos → Word → Except DecodeError Instr
  | .first, w => if w.isMarker then .ok .start else .error .startExpected
  | .later, w =>
    if w.isMarker then .ok .endMarker
    else if w.isFrame then .ok (frameOfWord w)
    else .error .notEmitted

/-- An input of port ENC (rule R58): none is illegal (rule R59). -/
def decodeEnc (encIn : BitVec 24) : Instr :=
  .encodeDeviceFrame (unpackColor encIn).r (unpackColor encIn).g (unpackColor encIn).b

/-- A host's offer (rules R50, R56). -/
def decodeOffer : Offer → Except DecodeError Instr
  | .rst h => .ok (.new h)
  | .cmd op n colors =>
    if op = 0#1 then
      if colors.length = n then .ok (.setColors (colors.map unpackColor)) else .error .lengthMismatch
    else if n = 0 ∧ colors = [] then .ok .release
    else .error .operandsOnRelease

/-- The operation of any packet. -/
def decode : Packet → Except DecodeError Instr
  | .offer o => decodeOffer o
  | .enc x => .ok (decodeEnc x)
  | .w32 pos w => decodeWord pos w
  | .tx w => if w.emittable then .ok (.transmit w) else .error .notEmitted

/-- The CMD record of SET_COLORS: `op` = 0, `n` = N, the colours (rule R56). -/
def cmdSetColors (colors : List ColorTriple) : Offer := .cmd 0#1 colors.length (colors.map packColor)

/-- The CMD record of RELEASE: `op` = 1 and nothing else (rule R56). -/
def cmdRelease : Offer := .cmd 1#1 0 []

/-- The packet of an operation. ENCODE_TRANSACTION and WRITE_STEP have no bit encoding (spec/opcode_table.json, rules R72
and R82). SET_COLOR has the record of SET_COLORS with `n` = 1 (rule R84). -/
def encode : Instr → Option Packet
  | .start => some (.w32 .first markerWord)
  | .frame nb ng nr b g r => some (.w32 .later (frameWord nb ng nr b g r))
  | .endMarker => some (.w32 .later markerWord)
  | .encodeDeviceFrame r g b => some (.enc (packColor ⟨r, g, b⟩))
  | .encodeTransaction _ => none
  | .new h => some (.offer (.rst h))
  | .setColors colors => some (.offer (cmdSetColors colors))
  | .writeStep => none
  | .setColor r g b => some (.offer (cmdSetColors [⟨r, g, b⟩]))
  | .release => some (.offer cmdRelease)
  | .transmit w => some (.tx w)

/-- The operation proper that an operation is written for: SET_COLOR is SET_COLORS of one triple (rules R60, R84). -/
def Instr.canonical : Instr → Instr
  | .setColor r g b => .setColors [⟨r, g, b⟩]
  | i => i

/-- The words after a start marker, up to and including the end marker, which ends the bytes (rules R32, R55). -/
def decodeFrames : List Byte → Except DecodeError (List ColorTriple)
  | [] => .error .endMissing
  | b0 :: b1 :: b2 :: b3 :: rest =>
    if (Word.mk b0 b1 b2 b3).isMarker then
      if rest.isEmpty then .ok [] else .error .bytesAfterEnd
    else if (Word.mk b0 b1 b2 b3).isFrame then
      match decodeFrames rest with
      | .ok colors => .ok (⟨b3, b2, b1⟩ :: colors)
      | .error e => .error e
    else .error .notEmitted
  | _ => .error .partialWord

/-- The chain colours of the bytes of one transaction, read from a word boundary (rules R32, R54, R55). -/
def decodeStream : List Byte → Except DecodeError (List ColorTriple)
  | [] => .error .startExpected
  | b0 :: b1 :: b2 :: b3 :: rest =>
    if (Word.mk b0 b1 b2 b3).isMarker then decodeFrames rest else .error .startExpected
  | _ => .error .partialWord

/-- The packet of an operation whose table bits are `w`: 32 bits are a W32 word (the MARKER pattern is read at the first
position of a transaction, any other at a later one), 24 bits an input of port ENC, and 8 bits the byte that holds the
1-bit `op` of a CMD record with no operands. DESIGN CHOICE (assumption 14). -/
def packetOfTableWord (nbits w : Nat) : Option Packet :=
  if w < 2 ^ nbits then
    match nbits with
    | 32 =>
      let x := wordOfPicture (BitVec.ofNat 32 w)
      some (.w32 (if x.isMarker then .first else .later) x)
    | 24 => some (.enc (BitVec.ofNat 24 w))
    | 8 => if w < 2 then some (.offer (.cmd (BitVec.ofNat 1 w) 0 [])) else none
    | _ => none
  else none

/-- The operation the decoder reads from an opcode-table word; `none` where it rejects it or the row has no bits. -/
def decodeTableWord (nbits w : Nat) : Option Instr :=
  match packetOfTableWord nbits w with
  | none => none
  | some p =>
    match decode p with
    | .ok i => some i
    | .error _ => none

end Sys2Proof
end

