-- ==== Sys2Proof/Machine/State.lean ====
section
/-!
DEFINITION. The state of the block (rule R10), the observation logs (rules R22, R131), the inputs that the host and the
transport give it (rules R4, R31, R58, R87), why a step can stop, and the state after reset (rule R23). The type `E` of
transport error values is a type argument of which nothing is assumed (rule R7).
-/

namespace Sys2Proof.Machine

/-- `mode` (rule R11): owns the transport and usable, or transport handed back and unusable. -/
inductive Mode where
  | holding
  | released
deriving DecidableEq, Repr

/-- `seq` (rule R13): no SET_COLORS in progress, or one whose operand is `colors` and whose next word has index `k`. -/
inductive Seq where
  | idle
  | run (colors : List ColorTriple) (k : Nat)
deriving DecidableEq, Repr

/-- The transport's answer to a write as the block sees it (rule R31). -/
inductive Answer (E : Type) where
  | ok
  | fail (e : E)
deriving DecidableEq, Repr

/-- What the transport does with one write: it accepts it (rule R36), or it fails it with `e` after the first `j` bytes,
`j` in 0..4 (rule R38). A draw: an input that nothing in the model constrains. -/
inductive TxInput (E : Type) where
  | ok
  | fail (e : E) (j : Fin 5)
deriving DecidableEq, Repr

/-- RSP, the response to a command (rule R57). -/
inductive Response (E : Type) where
  | ok
  | err (e : E)
  | handle (h : Handle)
deriving DecidableEq, Repr

/-- Why the machine makes no step although no rule is broken. Neither is a fault state of the block, which has none
(spec/93_implementation_defined.md); both are SAFE: nothing can be proved of what comes after.
DESIGN CHOICE (assumption 18). -/
inductive Fault where
  /-- Raised by a write (`execWriteStep`, `execStart`, `execFrame`, `execEndMarker`, `execTransmit`), and so by `step`, while
  a transaction runs and the transport gives no answer: the block is stuck (rules R82, R130). Safe. -/
  | transportSilent
  /-- Raised by `step` when `seq` is Idle, the host offers nothing and port ENC has no input: the state is final (rule
  R131). Safe. -/
  | runEnded
deriving DecidableEq, Repr

/-- Why an operation has no meaning in the state at hand. All are SAFE: the model stops. -/
inductive Refusal where
  /-- Raised by an arm of `exec` whose instruction has no meaning in the model. Safe. -/
  | notModelled (mnemonic : String)
  /-- Raised by every controller operation but NEW when `mode` is Released: a command offered then is never accepted
  (rules R87 (b), R108), and no write is made (rule R12). Safe. -/
  | consumed
  /-- Raised by NEW while a transaction runs: a reset in the middle of a run is not defined (rule R120). Safe. -/
  | resetInMidTransaction
  /-- Raised by WRITE_STEP, START, FRAME, END and TRANSMIT when `seq` is Idle: no write is enabled (rules R82, R86). Safe. -/
  | noTransaction
  /-- Raised by START, FRAME, END and TRANSMIT when the word they stand for is not the word due at index `k` (rules R40,
  R61, R86). Safe. -/
  | wordNotDue
  /-- Raised by a write when `k` is above N+1: no such state is reachable (rule R13). Safe. -/
  | noSuchWord
  /-- Raised by `step` on a CMD record that is no command (rule R56 gives its shape). Safe. -/
  | undecodable (why : DecodeError)
deriving DecidableEq, Repr

namespace Over

/-- The block, the logs an observer keeps of it, and what its environment has ready for it, over the type `E` of transport
error values (rule R7). -/
structure State (E : Type) where
  /-- Rule R11. -/
  mode : Mode
  /-- Rule R12: the transport bound by NEW. The block owns it exactly when `mode` is Holding. DESIGN CHOICE
  (assumption 12): the token stays here after RELEASE. -/
  xport : Handle
  /-- Rule R13. -/
  seq : Seq
  /-- Log `writes` (rule R22): each word handed to the transport with the transport's answer, oldest first. -/
  writes : List (Word × Answer E)
  /-- Log `bus` (rule R22): the bytes that reached the transport with an answered write, oldest first. What an observer
  finds while a write waits for its answer is `Over.State.busObserved` (rule R83). -/
  bus : List Byte
  /-- The sequence of responses (rules R57, R131), oldest first. DEDUCED (assumption 9): empty at reset. -/
  responses : List (Response E)
  /-- The results of ENCODE_DEVICE_FRAME and ENCODE_TRANSACTION (rules R58, R70, R72), oldest first. The model's own log
  (assumption 3). -/
  encOut : List (List Byte)
  /-- What the host shows to port ENC, in order (rule R58). An input: the model's own field (assumption 7). -/
  encInputs : List (BitVec 24)
  /-- What the host offers the controller, in order (rule R87). An input: the model's own field (assumption 4). -/
  offers : List Offer
  /-- What the transport does with the writes to come, in order (rule R31). An input: the model's own field
  (assumption 5). -/
  answers : List (TxInput E)
  /-- The model's own counter of answered writes, from which the free values of rule R83 are drawn (assumption 8). No
  other definition than `Over.State.busObserved` reads its value. -/
  draws : Nat
deriving DecidableEq, Repr

end Over

/-- The state over the type of error values at which the host runs the machine (assumption 1). -/
abbrev State := Over.State ErrVal

/-- What one operation or step yields. -/
abbrev Result (E : Type) := Host.Outcome (Over.State E) Fault Refusal

/-- Right after NEW with transport `h` (rules R23, R80, R120), with nothing ready in the environment. -/
def State.fresh {E : Type} (h : Handle) : Over.State E where
  mode := .holding
  xport := h
  seq := .idle
  writes := []
  bus := []
  responses := []
  encOut := []
  encInputs := []
  offers := []
  answers := []
  draws := 0

/-- The state right after reset, that is after NEW (rules R23, R120). -/
def State.reset : State := .fresh Config.resetHandle

end Sys2Proof.Machine
end

