-- ==== Sys2Proof/Machine/Flags.lean ====
section
/-!
DEFINITION. The block has no flags, condition codes or sticky bits (rule R16). The outcome of a command is in its response
only; here are the bits of the RSP format (rule R57) and what the block sees of a transport call (rules R31, R36, R38).
-/

namespace Sys2Proof.Machine

/-- Field `status` of RSP (rule R57): 0 is Ok, 1 is Err; the response to RELEASE has none. -/
def Response.status {E : Type} : Response E → Option (BitVec 1)
  | .ok => some 0#1
  | .err _ => some 1#1
  | .handle _ => none

/-- Field `err` of RSP (rule R57), present only when `status` is 1. -/
def Response.errVal {E : Type} : Response E → Option E
  | .ok => none
  | .err e => some e
  | .handle _ => none

/-- Field `handle` of RSP (rule R57), present only in the response to RELEASE. -/
def Response.handleVal {E : Type} : Response E → Option Handle
  | .ok => none
  | .err _ => none
  | .handle h => some h

/-- The answer the block gets (rule R31): it does not learn how many bytes of a failed write went out (rule R100). -/
def TxInput.answer {E : Type} : TxInput E → Answer E
  | .ok => .ok
  | .fail e _ => .fail e

/-- The bytes of a word that reach the bus: all four when the write is accepted (rule R36), the first `j` when it fails
(rule R38). -/
def TxInput.reached {E : Type} (a : TxInput E) (w : Word) : List Byte :=
  match a with
  | .ok => w.bytes
  | .fail _ j => w.bytes.take j.val

end Sys2Proof.Machine
end

