-- ==== Sys2Proof/Machine/Operands.lean ====
section
/-!
DEFINITION. Operand assembly: the prefix byte, the DeviceFrame, the transaction and its words (rules R32, R53, R70, R72).
-/

namespace Sys2Proof.Machine

/-- `((~v) >> 6) & 0b11` on an 8-bit channel (rule R53). -/
def topField (v : Byte) : Byte := ((~~~v) >>> 6) &&& 0b11#8

/-- The prefix byte of the frame for (r, g, b) (rule R53). -/
def prefixByte (r g b : Byte) : Byte :=
  0b11000000#8 ||| (topField b <<< 4) ||| (topField g <<< 2) ||| topField r

/-- The DeviceFrame of a colour, `[prefix, b, g, r]` (rule R70). -/
def deviceFrame (c : ColorTriple) : Word := ⟨prefixByte c.r c.g c.b, c.b, c.g, c.r⟩

/-- The bytes of the transaction for a chain: start marker, the frames in chain order, end marker (rule R72). -/
def transaction (colors : List ColorTriple) : List Byte :=
  markerWord.bytes ++ colors.flatMap (fun c => (deviceFrame c).bytes) ++ markerWord.bytes

/-- `WORD(colors, k)` (rule R72): the markers at indices 0 and N+1, the frame of `colors[k-1]` between; `none` above N+1,
where the rule defines no word. -/
def wordAt (colors : List ColorTriple) (k : Nat) : Option Word :=
  if k = 0 ∨ k = colors.length + 1 then some markerWord
  else (colors[k - 1]?).map deviceFrame

/-- The bytes that come out of port ENC for an input (rules R58, R70). -/
def encResult (encIn : BitVec 24) : List Byte := (deviceFrame (unpackColor encIn)).bytes

/-- The bytes of a word that a mask picks, in transport order: bit `i` of the mask stands for byte `B<i>`. -/
def maskedBytes (mask : BitVec 4) (w : Word) : List Byte :=
  (if mask.getLsbD 0 then [w.b0] else []) ++ (if mask.getLsbD 1 then [w.b1] else []) ++
    (if mask.getLsbD 2 then [w.b2] else []) ++ (if mask.getLsbD 3 then [w.b3] else [])

/-- The offset in its transaction of the first byte of word `k` (rules R35, R88). -/
def writeOffset (k : Nat) : Nat := Config.writeBytes * k

end Sys2Proof.Machine
end

