-- ==== Sys2Proof/Machine/Ops.lean ====
section
/-!
DEFINITION. The named operations the meanings are made of: the transport write, the response, TransportFailure (the one
failure, rules R100 to R106), the sequencer's reaction to an answer, the acceptance of a command, and construction. All take
the type `E` of error values as an argument and assume nothing of it (rule R7).
-/

namespace Sys2Proof.Machine

variable {E : Type}

/-- One transport write and its answer: both logs grow (rules R22, R36, R38, R82). -/
def memWrite (w : Word) (a : TxInput E) (s : Over.State E) : Over.State E :=
  { s with writes := s.writes ++ [(w, a.answer)], bus := s.bus ++ a.reached w, draws := s.draws + 1 }

/-- `respond(v)`: the block returns a response to the host (rule R57). -/
def respond (r : Response E) (s : Over.State E) : Over.State E := { s with responses := s.responses ++ [r] }

/-- `seq <- q` (rule R13). -/
def setSeq (q : Seq) (s : Over.State E) : Over.State E := { s with seq := q }

/-- `raise TransportFailure(e)` (rule R104): `seq` is Idle again and `e` goes back unchanged. Nothing is vectored, nothing
is saved, and there is nothing to return from (rule R106). -/
def transportFailure (e : E) (s : Over.State E) : Over.State E := respond (.err e) (setSeq .idle s)

/-- What WRITE_STEP does with the answer to word `k` (rule R82). -/
def afterAnswer (colors : List ColorTriple) (k : Nat) (a : TxInput E) (s : Over.State E) : Over.State E :=
  match a with
  | .ok => if k = colors.length + 1 then respond .ok (setSeq .idle s) else setSeq (.run colors (k + 1)) s
  | .fail e _ => transportFailure e s

/-- The write of word `w` at index `k`, with the answer the transport gives next; without one the block waits for ever
(rules R82, R130). -/
def writeWord (w : Word) (colors : List ColorTriple) (k : Nat) (s : Over.State E) : Result E :=
  match s.answers with
  | [] => .fault .transportSilent
  | a :: rest => .next (afterAnswer colors k a (memWrite w a { s with answers := rest }))

/-- The word handed to a transport that never answers it: the word due while a transaction runs and no answer is to come
(rules R82, R130). -/
def Over.State.waitingWord (s : Over.State E) : Option Word :=
  match s.seq, s.answers with
  | .run colors k, [] => wordAt colors k
  | _, _ => none

/-- What an observer finds on `bus` (rules R22, R83): the bytes of the answered writes and, while a word waits for an answer
that never comes, those of its bytes that `mask` picks. -/
def Over.State.busWith (mask : BitVec 4) (s : Over.State E) : List Byte :=
  match s.waitingWord with
  | none => s.bus
  | some w => s.bus ++ maskedBytes mask w

/-- What an observer finds on `bus` (rule R83): which bytes of a waiting word are there is not specified, a free value.
DESIGN CHOICE (assumption 8). -/
def Over.State.busObserved (s : Over.State E) : List Byte := s.busWith (Config.unansweredBytes s.draws)

/-- A transport write, made only when `mode` is Holding, a transaction runs and the word due is one that `due` admits
(rules R82, R86). DESIGN CHOICE (assumption 15): states that no run reaches stop by name. -/
def emit (due : List ColorTriple → Nat → Word → Bool) (s : Over.State E) : Result E :=
  match s.mode, s.seq with
  | .released, _ => .refused .consumed
  | .holding, .idle => .refused .noTransaction
  | .holding, .run colors k =>
    match wordAt colors k with
    | none => .refused .noSuchWord
    | some w => if due colors k w then writeWord w colors k s else .refused .wordNotDue

/-- A command that the host offers (rule R87): it takes effect in `{Holding, Idle}`; while a transaction runs it waits at
the head of the host's offers; once the controller is Released it is refused. DESIGN CHOICE (assumption 4): the
spec's host is blocking, and no queue of any depth may be assumed; here a command that `exec` is given while others wait
goes IN FRONT of them and would be accepted first. `step` never does this: it takes offers in order, and none while a
transaction runs. -/
def accept (offer : Offer) (effect : Over.State E → Over.State E) (s : Over.State E) : Result E :=
  match s.mode, s.seq with
  | .released, _ => .refused .consumed
  | .holding, .run _ _ => .next { s with offers := offer :: s.offers }
  | .holding, .idle => .next (effect s)

/-- Acceptance of SET_COLORS (rule R81): the operand is captured and the sequencer stands at word 0. -/
def beginTransaction (colors : List ColorTriple) (s : Over.State E) : Over.State E := setSeq (.run colors 0) s

/-- The effect of RELEASE (rule R85): the handle goes back to the host and `mode` is Released. -/
def handBack (s : Over.State E) : Over.State E := respond (.handle s.xport) { s with mode := .released }

/-- Construction (rules R80, R120): a new run with fresh state and fresh logs. The environment's inputs and draws are not
the block's to change. -/
def construct (h : Handle) (s : Over.State E) : Over.State E :=
  { State.fresh h with encInputs := s.encInputs, offers := s.offers, answers := s.answers, draws := s.draws }

/-- The result of a function of the FrameEncoder comes out (rules R58, R70, R72); the block's state is not involved. -/
def putResult (bytes : List Byte) (s : Over.State E) : Over.State E := { s with encOut := s.encOut ++ [bytes] }

end Sys2Proof.Machine
end

