-- ==== Sys2Proof/Machine/ChainController.lean ====
section
/-!
DEFINITION. The ChainController operations (spec/41_chain_controller.md): NEW, SET_COLORS, WRITE_STEP, SET_COLOR, RELEASE.
Each meaning is given for every type `E` of error values (rule R7), then at the host's.
-/

namespace Sys2Proof.Machine

variable {E : Type}

/-- NEW (rules R80, R120): begins a run. DEDUCED (assumption 6): a run that is over is any state with `seq` Idle; a reset
while a transaction runs is given no meaning (spec/92_eei_decisions.md D2). -/
def newOf (transport : Handle) (s : Over.State E) : Result E :=
  match s.seq with
  | .idle => .next (construct transport s)
  | .run _ _ => .refused .resetInMidTransaction

/-- NEW at the host's type of error values. -/
def execNew (transport : Handle) (s : State) : Host.Outcome State Fault Refusal := newOf transport s

/-- SET_COLORS (rule R81). -/
def setColorsOf (colors : List ColorTriple) (s : Over.State E) : Result E :=
  accept (cmdSetColors colors) (beginTransaction colors) s

/-- SET_COLORS at the host's type of error values. -/
def execSetColors (colors : List ColorTriple) (s : State) : Host.Outcome State Fault Refusal := setColorsOf colors s

/-- WRITE_STEP (rule R82): the word due goes to the transport. -/
def writeStepOf (s : Over.State E) : Result E :=
  emit (fun _ _ _ => true) s

/-- WRITE_STEP at the host's type of error values. -/
def execWriteStep (s : State) : Host.Outcome State Fault Refusal := writeStepOf s

/-- SET_COLOR (rule R84): SET_COLORS of the one triple. -/
def setColorOf (r g b : Byte) (s : Over.State E) : Result E :=
  accept (cmdSetColors [⟨r, g, b⟩]) (beginTransaction [⟨r, g, b⟩]) s

/-- SET_COLOR at the host's type of error values. -/
def execSetColor (r g b : Byte) (s : State) : Host.Outcome State Fault Refusal := setColorOf r g b s

/-- RELEASE (rule R85). -/
def releaseOf (s : Over.State E) : Result E :=
  accept cmdRelease handBack s

/-- RELEASE at the host's type of error values. -/
def execRelease (s : State) : Host.Outcome State Fault Refusal := releaseOf s

end Sys2Proof.Machine
end

