-- ==== Sys2Proof/Machine/FrameEncoder.lean ====
section
/-!
DEFINITION. The FrameEncoder operations (spec/40_frame_encoder.md): pure functions, enabled in every state (rules R58, R74).
Each meaning is given for every type `E` of error values (rule R7), then at the host's.
-/

namespace Sys2Proof.Machine

variable {E : Type}

/-- ENCODE_DEVICE_FRAME (rule R70): `enc_out` is the frame of the triple. -/
def encodeDeviceFrameOf (r g b : Byte) (s : Over.State E) : Result E :=
  .next (putResult (deviceFrame ⟨r, g, b⟩).bytes s)

/-- ENCODE_DEVICE_FRAME at the host's type of error values. -/
def execEncodeDeviceFrame (r g b : Byte) (s : State) : Host.Outcome State Fault Refusal := encodeDeviceFrameOf r g b s

/-- ENCODE_TRANSACTION (rule R72): the result is the bytes of the transaction. -/
def encodeTransactionOf (colors : List ColorTriple) (s : Over.State E) : Result E :=
  .next (putResult (transaction colors) s)

/-- ENCODE_TRANSACTION at the host's type of error values. -/
def execEncodeTransaction (colors : List ColorTriple) (s : State) : Host.Outcome State Fault Refusal :=
  encodeTransactionOf colors s

end Sys2Proof.Machine
end

