-- ==== Sys2Proof/Machine/WireWords.lean ====
section
/-!
DEFINITION. The wire words START, FRAME and END (rules R51, R52, R61) and the transport call TRANSMIT (rule R31). None is an
event apart: each is the WRITE_STEP (rule R82) that hands over that word, so it happens exactly when its word is due.
DEDUCED (assumption 11). Each meaning is given for every type `E` of error values (rule R7), then at the host's.
-/

namespace Sys2Proof.Machine

variable {E : Type}

/-- START: the MARKER word is emitted at word index 0 (rules R51, R61, R82). -/
def startOf (s : Over.State E) : Result E :=
  emit (fun _ k w => k == 0 && w == markerWord) s

/-- START at the host's type of error values. -/
def execStart (s : State) : Host.Outcome State Fault Refusal := startOf s

/-- FRAME: the FRAME word with these fields is emitted at an index 1 ≤ k ≤ N (rules R52, R61, R82). -/
def frameOf (nb ng nr : BitVec 2) (b g r : Byte) (s : Over.State E) : Result E :=
  emit (fun colors k w => 1 ≤ k && k ≤ colors.length && w == frameWord nb ng nr b g r) s

/-- FRAME at the host's type of error values. -/
def execFrame (nb ng nr : BitVec 2) (b g r : Byte) (s : State) : Host.Outcome State Fault Refusal :=
  frameOf nb ng nr b g r s

/-- END: the MARKER word is emitted at word index N+1 (rules R51, R61, R82). -/
def endMarkerOf (s : Over.State E) : Result E :=
  emit (fun colors k w => k == colors.length + 1 && w == markerWord) s

/-- END at the host's type of error values. -/
def execEndMarker (s : State) : Host.Outcome State Fault Refusal := endMarkerOf s

/-- TRANSMIT: the transport call that carries this word, issued by WRITE_STEP when the word is the one due (rules R31,
R34, R40, R61). -/
def transmitOf (word : Word) (s : Over.State E) : Result E :=
  emit (fun _ _ w => w == word) s

/-- TRANSMIT at the host's type of error values. -/
def execTransmit (word : Word) (s : State) : Host.Outcome State Fault Refusal := transmitOf word s

end Sys2Proof.Machine
end

