-- ==== Sys2Proof/Machine/Dispatch.lean ====
section
/-!
DEFINITION. One arm per operation of the operation map (rule R61).
-/

namespace Sys2Proof.Machine

def exec (i : Instr) (s : State) : Host.Outcome State Fault Refusal :=
  match i with
  | .start => Sys2Proof.Machine.execStart s
  | .frame nb ng nr b g r => Sys2Proof.Machine.execFrame nb ng nr b g r s
  | .endMarker => Sys2Proof.Machine.execEndMarker s
  | .encodeDeviceFrame r g b => Sys2Proof.Machine.execEncodeDeviceFrame r g b s
  | .encodeTransaction colors => Sys2Proof.Machine.execEncodeTransaction colors s
  | .new transport => Sys2Proof.Machine.execNew transport s
  | .setColors colors => Sys2Proof.Machine.execSetColors colors s
  | .writeStep => Sys2Proof.Machine.execWriteStep s
  | .setColor r g b => Sys2Proof.Machine.execSetColor r g b s
  | .release => Sys2Proof.Machine.execRelease s
  | .transmit word => Sys2Proof.Machine.execTransmit word s

end Sys2Proof.Machine
end

