-- ==== Sys2Proof/Machine/Fetch.lean ====
section
/-!
DEFINITION. What the machine does next (rules R58, R82, R87, R130, R131): the block stores no program (rule R15), so the next
operation is port ENC's, the sequencer's write, or the host's next offer.
-/

namespace Sys2Proof.Machine

variable {E : Type}

/-- The next operation, and the state it finds. Port ENC waits for nothing, neither `mode` nor `seq` nor the transport (rule
R58). While a transaction runs, WRITE_STEP is the only enabled controller step (rule R81), and an offer waits for it (rule
R87 (a)). DESIGN CHOICE (assumption 7): of an input of port ENC and a step of the controller, the former goes first. -/
def fetch (s : Over.State E) : Host.Outcome (Instr × Over.State E) Fault Refusal :=
  match s.encInputs with
  | x :: later => .next (decodeEnc x, { s with encInputs := later })
  | [] =>
    match s.seq with
    | .run _ _ => .next (.writeStep, s)
    | .idle =>
      match s.offers with
      | [] => .fault .runEnded
      | o :: rest =>
        match decodeOffer o with
        | .ok i => .next (i, { s with offers := rest })
        | .error why => .refused (.undecodable why)

/-- `s` with word `k` of the transaction for `colors` due, and an answer for it (assumption 10). -/
def placeWord (colors : List ColorTriple) (k : Nat) (s : Over.State E) : Over.State E :=
  { s with
    mode := .holding
    seq := .run colors k
    encInputs := []
    answers := if s.answers.isEmpty then [.ok] else s.answers }

/-- `s` with an offer at the head of the host's offers and nothing in the way of it (assumption 10). -/
def placeOffer (o : Offer) (s : Over.State E) : Over.State E :=
  { s with mode := .holding, seq := .idle, encInputs := [], offers := o :: s.offers }

/-- `s` with an input at port ENC (assumption 10). -/
def placeEnc (x : BitVec 24) (s : Over.State E) : Over.State E := { s with encInputs := x :: s.encInputs }

/-- `s` with the operation of an opcode-table word standing where the machine takes its next one. -/
def placeTableWord (s : State) (nbits w : Nat) : State :=
  match decodeTableWord nbits w with
  | some .start => placeWord [] 0 s
  | some (.frame _ _ _ b g r) => placeWord [⟨r, g, b⟩] 1 s
  | some i =>
    match encode i with
    | some (.offer o) => placeOffer o s
    | some (.enc x) => placeEnc x s
    | _ => s
  | none => s

end Sys2Proof.Machine
end

