-- ==== Sys2Proof/Machine/Step.lean ====
section
/-!
DEFINITION. One step of the machine: the next operation (`fetch`) is carried out (`exec`).
-/

namespace Sys2Proof.Machine

/-- One event of a run (rules R4, R86). -/
def step (s : State) : Host.Outcome State Fault Refusal :=
  match fetch s with
  | .next (i, s') => exec i s'
  | .fault r => .fault r
  | .refused r => .refused r

/-- `s` with the operation of an opcode-table word placed so that the next step runs it. -/
def State.withFetchWord (s : State) (nbits w : Nat) : State := placeTableWord s nbits w

end Sys2Proof.Machine
end

