-- ==== Sys2Proof/Machine/Generic.lean ====
section
/-!
DEFINITION. The machine with the type `E` of transport error values as its type argument (rule R7). `exec` and `step` are
these two at the host's `E`.
-/

namespace Sys2Proof.Machine

variable {E : Type}

/-- What an operation does, for every `E`. -/
def execOf (i : Instr) (s : Over.State E) : Result E :=
  match i with
  | .start => startOf s
  | .frame nb ng nr b g r => frameOf nb ng nr b g r s
  | .endMarker => endMarkerOf s
  | .encodeDeviceFrame r g b => encodeDeviceFrameOf r g b s
  | .encodeTransaction colors => encodeTransactionOf colors s
  | .new transport => newOf transport s
  | .setColors colors => setColorsOf colors s
  | .writeStep => writeStepOf s
  | .setColor r g b => setColorOf r g b s
  | .release => releaseOf s
  | .transmit word => transmitOf word s

/-- One event of a run (rules R4, R86), for every `E`. -/
def stepOf (s : Over.State E) : Result E :=
  match fetch s with
  | .next (i, s') => execOf i s'
  | .fault r => .fault r
  | .refused r => .refused r

end Sys2Proof.Machine
end

