-- ==== Sys2Proof/Safety.lean ====
section
/-!
DEFINITION. The terms in which claims speak of runs: the invariant of the machine, its transition table (rule R86), the part
of the state the block itself can see (rule R22), and renamings of the values it must not inspect (rules R7, R12). All are
said for every type `E` of error values.
-/

namespace Sys2Proof.Machine

variable {E F : Type}

/-- `m` steps of the machine, stopping where a step stops (rule R131: a run is a sequence of events). -/
def runSteps : Nat → Over.State E → Result E
  | 0, s => .next s
  | m + 1, s =>
    match stepOf s with
    | .next s' => runSteps m s'
    | .fault r => .fault r
    | .refused r => .refused r

/-- The entries that `writes` gains while the first `m` words of a transaction are all accepted (rules R22, R40). -/
def okWrites (colors : List ColorTriple) (m : Nat) : List (Word × Answer E) :=
  ((List.range m).filterMap (wordAt colors)).map (fun w => (w, Answer.ok))

/-- A transaction runs only while `mode` is Holding (rule R86), and its word index is at most N+1 (rule R13). -/
def Over.State.SeqInv (s : Over.State E) : Prop :=
  ∀ colors k, s.seq = .run colors k → s.mode = .holding ∧ k ≤ colors.length + 1

/-- Every word handed to the transport is the MARKER word or the FRAME word of a colour (rule R59). -/
def Over.State.WordsInv (s : Over.State E) : Prop :=
  ∀ entry ∈ s.writes, entry.1 = markerWord ∨ ∃ c, entry.1 = deviceFrame c

/-- While a transaction runs, the logs of answered writes end in exactly what its first `k` words put there (rules R22, R36,
R40). Bytes of a word that waits for its answer are not in `bus` but in `Over.State.busObserved` (rule R83, assumption 8). -/
def Over.State.ProgressInv (s : Over.State E) : Prop :=
  ∀ colors k, s.seq = .run colors k →
    ∃ writes0 bus0, s.writes = writes0 ++ okWrites colors k ∧
      s.bus = bus0 ++ (transaction colors).take (writeOffset k)

/-- The invariant of the machine. -/
structure Over.State.Inv (s : Over.State E) : Prop where
  seqInv : s.SeqInv
  wordsInv : s.WordsInv
  progressInv : s.ProgressInv

/-- The operations that stand for the write of word `w` at index `k` (rules R31, R61, R82). -/
def Emits (i : Instr) (colors : List ColorTriple) (k : Nat) (w : Word) : Prop :=
  match i with
  | .writeStep => True
  | .start => k = 0
  | .frame nb ng nr b g r => 1 ≤ k ∧ k ≤ colors.length ∧ w = frameWord nb ng nr b g r
  | .endMarker => k = colors.length + 1
  | .transmit word => w = word
  | .encodeDeviceFrame _ _ _ => False
  | .encodeTransaction _ => False
  | .new _ => False
  | .setColors _ => False
  | .setColor _ _ _ => False
  | .release => False

/-- The rows of rule R86's table, T1 to T6 and the waiting offer of T8, and the functions of the FrameEncoder, which are
enabled everywhere and touch nothing (rule R58). Row T7 has no step. Beside the rule's words stand the model's choices: T1
from every state with `seq` Idle (assumption 6) and with no responses (assumption 9), T8 as a next state with the offer at
the head of the offers (assumption 4), the results in `encOut` (assumption 3), and the count `draws` (assumption 8). -/
inductive TableRow : Instr → Over.State E → Over.State E → Prop where
  /-- T1. -/
  | begun (h : Handle) (s t : Over.State E) :
      s.seq = .idle → t.mode = .holding → t.xport = h → t.seq = .idle → t.writes = [] → t.bus = [] →
      t.responses = [] → TableRow (.new h) s t
  /-- T2. -/
  | accepted (i : Instr) (colors : List ColorTriple) (s : Over.State E) :
      i.canonical = .setColors colors → s.mode = .holding → s.seq = .idle →
      TableRow i s { s with seq := .run colors 0 }
  /-- T3. -/
  | wordAccepted (i : Instr) (colors : List ColorTriple) (k : Nat) (w : Word) (rest : List (TxInput E)) (s : Over.State E) :
      Emits i colors k w → s.mode = .holding → s.seq = .run colors k → k ≤ colors.length →
      wordAt colors k = some w → s.answers = .ok :: rest →
      TableRow i s { s with
        seq := .run colors (k + 1), writes := s.writes ++ [(w, .ok)], bus := s.bus ++ w.bytes, answers := rest,
        draws := s.draws + 1 }
  /-- T4. -/
  | lastAccepted (i : Instr) (colors : List ColorTriple) (rest : List (TxInput E)) (s : Over.State E) :
      Emits i colors (colors.length + 1) markerWord → s.mode = .holding →
      s.seq = .run colors (colors.length + 1) → s.answers = .ok :: rest →
      TableRow i s { s with
        seq := .idle, writes := s.writes ++ [(markerWord, .ok)], bus := s.bus ++ markerWord.bytes,
        responses := s.responses ++ [.ok], answers := rest, draws := s.draws + 1 }
  /-- T5. -/
  | wordFailed (i : Instr) (colors : List ColorTriple) (k : Nat) (w : Word) (e : E) (j : Fin 5)
      (rest : List (TxInput E)) (s : Over.State E) :
      Emits i colors k w → s.mode = .holding → s.seq = .run colors k → k ≤ colors.length + 1 →
      wordAt colors k = some w → s.answers = .fail e j :: rest →
      TableRow i s { s with
        seq := .idle, writes := s.writes ++ [(w, .fail e)], bus := s.bus ++ w.bytes.take j.val,
        responses := s.responses ++ [.err e], answers := rest, draws := s.draws + 1 }
  /-- T6. -/
  | handedBack (s : Over.State E) :
      s.mode = .holding → s.seq = .idle →
      TableRow .release s { s with mode := .released, responses := s.responses ++ [.handle s.xport] }
  /-- T8: the offer waits. -/
  | waits (i : Instr) (o : Offer) (colors : List ColorTriple) (k : Nat) (s : Over.State E) :
      i = .release ∨ (∃ operand, i.canonical = .setColors operand) → encode i = some (.offer o) →
      s.mode = .holding → s.seq = .run colors k →
      TableRow i s { s with offers := o :: s.offers }
  /-- The functions of the FrameEncoder. -/
  | computed (i : Instr) (result : List Byte) (s : Over.State E) :
      (∃ r g b, i = .encodeDeviceFrame r g b ∧ result = (deviceFrame ⟨r, g, b⟩).bytes) ∨
        (∃ colors, i = .encodeTransaction colors ∧ result = transaction colors) →
      TableRow i s { s with encOut := s.encOut ++ [result] }

/-- Two states that differ at most in what only an observer reads, the logs and the counter of draws: the block and its
environment's inputs are the same (rule R22). -/
def SameBlock (s t : Over.State E) : Prop :=
  s.mode = t.mode ∧ s.xport = t.xport ∧ s.seq = t.seq ∧ s.encInputs = t.encInputs ∧ s.offers = t.offers ∧
    s.answers = t.answers

/-- Two outcomes of the same kind, with the same reason where they stop and related states where they go on. -/
def OutcomesAgree (related : Over.State E → Over.State E → Prop) : Result E → Result E → Prop
  | .next s, .next t => related s t
  | .fault r, .fault r' => r = r'
  | .refused r, .refused r' => r = r'
  | _, _ => False

/-- Two moves, from `s` to `s'` and from `t` to `t'`, put out the same: each log gains the same entries on both sides, or both
begin afresh, as a new run does (rules R22, R120). -/
def SameOutputs (s s' t t' : Over.State E) : Prop :=
  (∃ (writes : List (Word × Answer E)) (bus : List Byte) (responses : List (Response E)) (results : List (List Byte)),
    (s'.writes = s.writes ++ writes ∧ t'.writes = t.writes ++ writes) ∧
    (s'.bus = s.bus ++ bus ∧ t'.bus = t.bus ++ bus) ∧
    (s'.responses = s.responses ++ responses ∧ t'.responses = t.responses ++ responses) ∧
    (s'.encOut = s.encOut ++ results ∧ t'.encOut = t.encOut ++ results)) ∨
  ((s'.writes = [] ∧ t'.writes = []) ∧ (s'.bus = [] ∧ t'.bus = []) ∧ (s'.responses = [] ∧ t'.responses = []) ∧
    (s'.encOut = [] ∧ t'.encOut = []))

/-- An answer with its error value renamed. -/
def renameAnswer (f : E → F) : Answer E → Answer F
  | .ok => .ok
  | .fail e => .fail (f e)

/-- A transport input with its error value renamed. -/
def renameInput (f : E → F) : TxInput E → TxInput F
  | .ok => .ok
  | .fail e j => .fail (f e) j

/-- A response with its error value and its handle renamed. -/
def renameResponse (f : E → F) (g : Handle → Handle) : Response E → Response F
  | .ok => .ok
  | .err e => .err (f e)
  | .handle h => .handle (g h)

/-- An offer with its handle renamed. -/
def renameOffer (g : Handle → Handle) : Offer → Offer
  | .rst h => .rst (g h)
  | .cmd op n colors => .cmd op n colors

/-- A state with every error value renamed by `f` and every handle by `g`. -/
def Over.State.rename (f : E → F) (g : Handle → Handle) (s : Over.State E) : Over.State F where
  mode := s.mode
  xport := g s.xport
  seq := s.seq
  writes := s.writes.map (fun entry => (entry.1, renameAnswer f entry.2))
  bus := s.bus
  responses := s.responses.map (renameResponse f g)
  encOut := s.encOut
  encInputs := s.encInputs
  offers := s.offers.map (renameOffer g)
  answers := s.answers.map (renameInput f)
  draws := s.draws

/-- An outcome with its state renamed. -/
def renameOutcome (f : E → F) (g : Handle → Handle) : Result E → Result F
  | .next s => .next (s.rename f g)
  | .fault r => .fault r
  | .refused r => .refused r

end Sys2Proof.Machine
end

