-- ==== Sys2Proof/Certificates/Slice0/Obligations.lean ====
section
/-!
DEFINITION. The statements for the provers, in the order of the spec: the encoder, decoding and encoding, the operations of
the controller one by one, and the rules about the whole machine.
-/

open Sys2Proof Sys2Proof.Machine

/-! ### The prefix byte and the DeviceFrame -/

/-- Rule R53: the formula with its grouping, the paraphrase by bit positions, the three closed forms, and the mask: it
changes nothing at 8 bits and makes every wider complement give the same field. -/
def Obligations.PrefixFormulaAndClosedForms : Prop :=
  (∀ r g b : Byte,
    prefixByte r g b =
        0b11000000#8 ||| (((~~~b >>> 6) &&& 0b11#8) <<< 4) ||| (((~~~g >>> 6) &&& 0b11#8) <<< 2) |||
          ((~~~r >>> 6) &&& 0b11#8) ∧
      (prefixByte r g b).extractLsb' 6 2 = 0b11#2 ∧
      (prefixByte r g b).extractLsb' 4 2 = ~~~(b.extractLsb' 6 2) ∧
      (prefixByte r g b).extractLsb' 2 2 = ~~~(g.extractLsb' 6 2) ∧
      (prefixByte r g b).extractLsb' 0 2 = ~~~(r.extractLsb' 6 2) ∧
      prefixByte r g b =
        0xFF#8 ^^^ (((b.extractLsb' 6 2).setWidth 8 <<< 4) ||| ((g.extractLsb' 6 2).setWidth 8 <<< 2) |||
          (r.extractLsb' 6 2).setWidth 8) ∧
      prefixByte r g b = 0b11#2 ++ ~~~(b.extractLsb' 6 2) ++ ~~~(g.extractLsb' 6 2) ++ ~~~(r.extractLsb' 6 2) ∧
      (prefixByte r g b).toNat = 255 - 16 * (b.toNat / 64) - 4 * (g.toNat / 64) - r.toNat / 64) ∧
  (∀ v : Byte, topField v = ~~~v >>> 6) ∧
  (∀ (n : Nat) (v : Byte), 8 ≤ n →
    ((~~~(v.setWidth n) >>> 6) &&& BitVec.ofNat n 3).toNat = (topField v).toNat)

/-- Rule R52: every field of a FRAME word at its bits of the 32-bit picture, and the match and mask. -/
def Obligations.FrameWordFields : Prop :=
  ∀ c : ColorTriple,
    deviceFrame c = ⟨prefixByte c.r c.g c.b, c.b, c.g, c.r⟩ ∧
    (wordPicture (deviceFrame c)).extractLsb' 30 2 = 0b11#2 ∧
    (wordPicture (deviceFrame c)).extractLsb' 28 2 = ~~~(c.b.extractLsb' 6 2) ∧
    (wordPicture (deviceFrame c)).extractLsb' 26 2 = ~~~(c.g.extractLsb' 6 2) ∧
    (wordPicture (deviceFrame c)).extractLsb' 24 2 = ~~~(c.r.extractLsb' 6 2) ∧
    (wordPicture (deviceFrame c)).extractLsb' 16 8 = c.b ∧
    (wordPicture (deviceFrame c)).extractLsb' 8 8 = c.g ∧
    (wordPicture (deviceFrame c)).extractLsb' 0 8 = c.r ∧
    (deviceFrame c).b0.getLsbD 5 = !c.b.getLsbD 7 ∧ (deviceFrame c).b0.getLsbD 4 = !c.b.getLsbD 6 ∧
    (deviceFrame c).b0.getLsbD 3 = !c.g.getLsbD 7 ∧ (deviceFrame c).b0.getLsbD 2 = !c.g.getLsbD 6 ∧
    (deviceFrame c).b0.getLsbD 1 = !c.r.getLsbD 7 ∧ (deviceFrame c).b0.getLsbD 0 = !c.r.getLsbD 6 ∧
    wordPicture (deviceFrame c) &&& 0xC0000000#32 = 0xC0000000#32

/-- Rule R71: the table, row by row (`b[7:6]`, then `g[7:6]`, then `r[7:6]`); the reading of the table; and that the prefix
takes exactly the values C0 to FF, each for exactly one combination of tops. -/
def Obligations.PrefixTable : Prop :=
  (∀ r g b : Byte,
    ([0xFF, 0xFE, 0xFD, 0xFC, 0xFB, 0xFA, 0xF9, 0xF8, 0xF7, 0xF6, 0xF5, 0xF4, 0xF3, 0xF2, 0xF1, 0xF0] ++
      [0xEF, 0xEE, 0xED, 0xEC, 0xEB, 0xEA, 0xE9, 0xE8, 0xE7, 0xE6, 0xE5, 0xE4, 0xE3, 0xE2, 0xE1, 0xE0] ++
      [0xDF, 0xDE, 0xDD, 0xDC, 0xDB, 0xDA, 0xD9, 0xD8, 0xD7, 0xD6, 0xD5, 0xD4, 0xD3, 0xD2, 0xD1, 0xD0] ++
      [0xCF, 0xCE, 0xCD, 0xCC, 0xCB, 0xCA, 0xC9, 0xC8, 0xC7, 0xC6, 0xC5, 0xC4, 0xC3, 0xC2, 0xC1, 0xC0] :
        List Byte)[16 * (b.toNat / 64) + 4 * (g.toNat / 64) + r.toNat / 64]? = some (prefixByte r g b)) ∧
  (∀ r g b : Byte,
    (prefixByte r g b).toNat = 0xFF - 16 * (b.toNat / 64) - 4 * (g.toNat / 64) - r.toNat / 64) ∧
  (∀ p : Byte, (∃ r g b, prefixByte r g b = p) ↔ 0xC0 ≤ p.toNat) ∧
  (∀ r g b r' g' b' : Byte, prefixByte r g b = prefixByte r' g' b' ↔
    b.extractLsb' 6 2 = b'.extractLsb' 6 2 ∧ g.extractLsb' 6 2 = g'.extractLsb' 6 2 ∧
      r.extractLsb' 6 2 = r'.extractLsb' 6 2)

/-- Rule R73 (a) to (d): the arithmetic the encoder uses, on numbers: no shift loses a bit and the four terms add up. -/
def Obligations.EncoderArithmeticLaws : Prop :=
  (∀ v : Byte, (~~~v).toNat = 255 - v.toNat ∧ (v >>> 6).toNat = v.toNat / 64 ∧ (v >>> 6).toNat ≤ 3) ∧
  (∀ v : Byte, (topField v).toNat ≤ 3 ∧ (topField v <<< 4).toNat = 16 * (topField v).toNat ∧
    (topField v <<< 4).toNat ≤ 48 ∧ (topField v <<< 2).toNat = 4 * (topField v).toNat ∧
    (topField v <<< 2).toNat ≤ 12) ∧
  (∀ r g b : Byte, (prefixByte r g b).toNat =
    192 + (topField b <<< 4).toNat + (topField g <<< 2).toNat + (topField r).toNat)

/-- Rules R70, R58, R74: ENCODE_DEVICE_FRAME completes in every state with the frame as its result, and changes nothing
else. -/
def Obligations.EncodeDeviceFrameCompletes : Prop :=
  ∀ (r g b : Byte) (s : State),
    exec (.encodeDeviceFrame r g b) s = .next { s with
      encOut := s.encOut ++
        [[0b11000000#8 ||| (((~~~b >>> 6) &&& 0b11#8) <<< 4) ||| (((~~~g >>> 6) &&& 0b11#8) <<< 2) |||
            ((~~~r >>> 6) &&& 0b11#8), b, g, r]] }

/-- Rules R72, R74: ENCODE_TRANSACTION completes in every state and for every chain, the empty one too, and changes nothing
else; the result is the words of the chain one after another. -/
def Obligations.EncodeTransactionCompletes : Prop :=
  ∀ (colors : List ColorTriple) (s : State),
    exec (.encodeTransaction colors) s = .next { s with
      encOut := s.encOut ++
        [((List.range (colors.length + 2)).filterMap (wordAt colors)).flatMap Word.bytes] }

/-- Rules R32, R72, R81, R88: the words of a transaction by index, its length, and the four bytes at offset 4k. -/
def Obligations.WordsOfATransaction : Prop :=
  ∀ colors : List ColorTriple,
    (transaction colors).length = 4 * (colors.length + 2) ∧
    wordAt colors 0 = some markerWord ∧ wordAt colors (colors.length + 1) = some markerWord ∧
    (∀ (i : Nat) (c : ColorTriple), colors[i]? = some c → wordAt colors (i + 1) = some (deviceFrame c)) ∧
    (∀ k, (wordAt colors k).isSome ↔ k ≤ colors.length + 1) ∧
    (∀ k w, wordAt colors k = some w → ((transaction colors).drop (4 * k)).take 4 = [w.b0, w.b1, w.b2, w.b3])

/-- Rule R75, properties P1 to P5. -/
def Obligations.EncoderProperties : Prop :=
  (∀ r g b : Byte,
    (∃ p, (deviceFrame ⟨r, g, b⟩).bytes[0]? = some p ∧ p &&& 0b11000000#8 = 0b11000000#8 ∧
      (p >>> 4) &&& 0b11#8 = (~~~b >>> 6) &&& 0b11#8 ∧ (p >>> 2) &&& 0b11#8 = (~~~g >>> 6) &&& 0b11#8 ∧
      p &&& 0b11#8 = (~~~r >>> 6) &&& 0b11#8) ∧
    (deviceFrame ⟨r, g, b⟩).bytes.drop 1 = [b, g, r]) ∧
  transaction [] = List.replicate 8 0x00#8 ∧
  (∀ cs : List ColorTriple,
    (transaction cs).length = 4 * (cs.length + 2) ∧
    (transaction cs).take 4 = List.replicate 4 0x00#8 ∧
    (transaction cs).drop (4 * (cs.length + 1)) = List.replicate 4 0x00#8 ∧
    ∀ (i : Nat) (c : ColorTriple), cs[i]? = some c →
      ((transaction cs).drop (4 + 4 * i)).take 4 = (deviceFrame c).bytes)

/-- Rule R51: the MARKER word is the zero word and both markers of a transaction are it. -/
def Obligations.MarkerWordIsZero : Prop :=
  wordPicture markerWord = 0x00000000#32 ∧ markerWord.bytes = [0x00#8, 0x00#8, 0x00#8, 0x00#8] ∧
  ∀ colors : List ColorTriple,
    wordAt colors 0 = some markerWord ∧ wordAt colors (colors.length + 1) = some markerWord

/-- Rule R55: content tells a FRAME word from a MARKER word, and position alone tells the markers apart. Without word
alignment, zero bytes prove nothing: a black frame and the end marker have seven of them in a row. -/
def Obligations.MarkerAndFrameToldApart : Prop :=
  (∀ c : ColorTriple, (deviceFrame c).b0.extractLsb' 6 2 = 0b11#2 ∧ 0xC0 ≤ (deviceFrame c).b0.toNat ∧
    deviceFrame c ≠ markerWord ∧ (deviceFrame c).isMarker = false ∧ (deviceFrame c).isFrame = true) ∧
  wordPicture markerWord = 0#32 ∧ markerWord.isFrame = false ∧
  decodeWord .first markerWord = .ok .start ∧ decodeWord .later markerWord = .ok .endMarker ∧
  (transaction [⟨0, 0, 0⟩]).drop 4 = 0xFF#8 :: List.replicate 7 0x00#8

/-- From rule R59's output side: the words the block can emit are the MARKER word and one FRAME word for each colour. -/
def Obligations.EmittableWords : Prop :=
  (∀ w : Word, w.emittable = true ↔ w = markerWord ∨ ∃ c, w = deviceFrame c) ∧
  (∀ c c' : ColorTriple, deviceFrame c = deviceFrame c' → c = c')

/-! ### Decoding and encoding -/

/-- From rules R32, R54, R55: a reader at the start of a transaction's bytes gets the chain back, for every chain. -/
def Obligations.StreamRoundTrip : Prop :=
  ∀ colors : List ColorTriple, decodeStream (transaction colors) = .ok colors

/-- From rules R32, R54, R55: the only bytes read as a chain are that chain's transaction. -/
def Obligations.StreamDecodeSound : Prop :=
  ∀ (bytes : List Byte) (colors : List ColorTriple),
    decodeStream bytes = .ok colors → bytes = transaction colors

/-- From rules R52, R56, R58, R60: decoding the packet of a well-formed operation gives it back; SET_COLOR comes back as the
SET_COLORS it stands for. -/
def Obligations.DecodeOfEncode : Prop :=
  ∀ (i : Instr) (p : Packet), i.wellFormed = true → encode i = some p → decode p = .ok i.canonical

/-- From rules R52, R56, R58: what a packet decodes to is well formed and has that packet. -/
def Obligations.EncodeOfDecode : Prop :=
  ∀ (i : Instr) (p : Packet), decode p = .ok i → i.wellFormed = true ∧ encode i = some p

/-- Words of spec/95_test_vectors.md and the table, bit by bit. -/
def Obligations.SpecWordsDecode : Prop :=
  decodeTableWord 32 0x00000000 = some .start ∧
  decodeTableWord 32 0xC3C8FF00 = some (.frame 0b00#2 0b00#2 0b11#2 200 255 0) ∧
  decodeTableWord 24 0x00FFC8 = some (.encodeDeviceFrame 0 255 200) ∧
  decodeTableWord 8 0 = some (.setColors []) ∧
  decodeTableWord 8 1 = some .release

/-! ### The controller, operation by operation -/

/-- From rules R9, R23: the values the spec gives for reset. Which handle stands in `xport` is the model's (assumption 2). -/
def Obligations.ResetValues : Prop :=
  State.reset.mode = .holding ∧ State.reset.seq = .idle ∧ State.reset.writes = [] ∧ State.reset.bus = [] ∧
    Config.maxClockHz = 15000000

/-- From rules R80, R120, R121: NEW begins a run with fresh state, the given transport and fresh logs, and writes nothing.
That it may do so in any state with `seq` Idle is the model's reading (assumption 6); the environment's inputs, and the
model's count of draws, stay. -/
def Obligations.NewBeginsARun : Prop :=
  (∀ (h : Handle) (s : State), s.seq = .idle →
    exec (.new h) s = .next
      { mode := .holding, xport := h, seq := .idle, writes := [], bus := [], responses := [], encOut := [],
        encInputs := s.encInputs, offers := s.offers, answers := s.answers, draws := s.draws }) ∧
  (∀ (h : Handle) (s : State) (colors : List ColorTriple) (k : Nat), s.seq = .run colors k →
    exec (.new h) s = .refused .resetInMidTransaction)

/-- From rules R81, R87: SET_COLORS is accepted in `{Holding, Idle}` for every chain: it starts the sequencer at word 0 and
changes nothing else. -/
def Obligations.SetColorsAccepted : Prop :=
  ∀ (colors : List ColorTriple) (s : State), s.mode = .holding → s.seq = .idle →
    exec (.setColors colors) s = .next { s with seq := .run colors 0 }

/-- Rule R84: SET_COLOR is SET_COLORS of the one triple, in every state; it has the CMD record with n = 1, completes where
SET_COLORS does, and its transaction is start marker, one frame, end marker. -/
def Obligations.SetColorIsSetColorsOfOne : Prop :=
  ∀ (r g b : Byte) (s : State),
    exec (.setColor r g b) s = exec (.setColors [⟨r, g, b⟩]) s ∧
    encode (.setColor r g b) = some (.offer (.cmd 0#1 1 [r ++ g ++ b])) ∧
    (s.mode = .holding → s.seq = .idle →
      exec (.setColor r g b) s = .next { s with seq := .run [⟨r, g, b⟩] 0 }) ∧
    transaction [⟨r, g, b⟩] = [0, 0, 0, 0, prefixByte r g b, b, g, r, 0, 0, 0, 0]

/-- From rules R57, R85: RELEASE in `{Holding, Idle}` gives the handle back in a response with no status, makes `mode`
Released, and changes nothing else: no transport write. -/
def Obligations.ReleaseHandsBack : Prop :=
  ∀ s : State, s.mode = .holding → s.seq = .idle →
    exec .release s = .next
      { s with mode := .released, responses := s.responses ++ [.handle s.xport] } ∧
    (Response.handle s.xport : Response ErrVal).status = none ∧
    (Response.handle s.xport : Response ErrVal).errVal = none ∧
    (Response.handle s.xport : Response ErrVal).handleVal = some s.xport

/-- From rule R87 (a): a command offered while a transaction runs is neither accepted nor lost: it stands at the head of the
host's offers, as the CMD record of rule R56, and nothing else changes. That it stands at the head, in front of any offer
that waits already, is the model's (assumption 4): the spec leaves open what two offers that wait at once do. -/
def Obligations.CommandsWaitWhileRunning : Prop :=
  ∀ (s : State) (colors : List ColorTriple) (k : Nat), s.mode = .holding → s.seq = .run colors k →
    (∀ operand : List ColorTriple, exec (.setColors operand) s = .next
      { s with offers := .cmd 0#1 operand.length (operand.map fun c => c.r ++ c.g ++ c.b) :: s.offers }) ∧
    (∀ r g b : Byte, exec (.setColor r g b) s = .next
      { s with offers := .cmd 0#1 1 [r ++ g ++ b] :: s.offers }) ∧
    exec .release s = .next { s with offers := .cmd 1#1 0 [] :: s.offers }

/-- Rule R108: a command offered while `mode` is Released is refused, whatever `seq` is: no next state, so no write, no
response and no change; and a step that meets such an offer, with no input at port ENC, refuses it. -/
def Obligations.CommandsRefusedAfterRelease : Prop :=
  ∀ s : State, s.mode = .released →
    (∀ colors : List ColorTriple, exec (.setColors colors) s = .refused .consumed) ∧
    (∀ r g b : Byte, exec (.setColor r g b) s = .refused .consumed) ∧
    exec .release s = .refused .consumed ∧
    (∀ (o : Offer) (offers : List Offer), s.encInputs = [] → s.seq = .idle → s.offers = o :: offers →
      o = cmdRelease ∨ (∃ colors, o = cmdSetColors colors) → step s = .refused .consumed)

/-- From rule R82 (and R36, R38, R104): WRITE_STEP with each kind of answer. Accepted before the last word: `k` advances.
Accepted at the end marker: `seq` is Idle and the response is Ok. Failed at any word: the first `j` bytes are out, `seq` is
Idle and the response carries `e` unchanged. Nothing else changes but the model's count of draws (assumption 8). -/
def Obligations.WriteStepOutcomes : Prop :=
  ∀ (s : State) (colors : List ColorTriple) (k : Nat) (w : Word) (rest : List (TxInput ErrVal)),
    s.mode = .holding → s.seq = .run colors k → wordAt colors k = some w →
    (s.answers = .ok :: rest → k ≤ colors.length →
      exec .writeStep s = .next { s with
        seq := .run colors (k + 1), writes := s.writes ++ [(w, .ok)],
        bus := s.bus ++ [w.b0, w.b1, w.b2, w.b3], answers := rest, draws := s.draws + 1 }) ∧
    (s.answers = .ok :: rest → k = colors.length + 1 →
      exec .writeStep s = .next { s with
        seq := .idle, writes := s.writes ++ [(w, .ok)], bus := s.bus ++ [w.b0, w.b1, w.b2, w.b3],
        responses := s.responses ++ [.ok], answers := rest, draws := s.draws + 1 }) ∧
    (∀ (e : ErrVal) (j : Fin 5), s.answers = .fail e j :: rest →
      exec .writeStep s = .next { s with
        seq := .idle, writes := s.writes ++ [(w, .fail e)],
        bus := s.bus ++ [w.b0, w.b1, w.b2, w.b3].take j.val,
        responses := s.responses ++ [.err e], answers := rest, draws := s.draws + 1 })

/-- From rules R51, R61, R82: START at word index 0 puts the zero word out and the sequencer goes on to word 1, or the write
fails. -/
def Obligations.StartIsEmittedAtIndexZero : Prop :=
  ∀ (s : State) (colors : List ColorTriple) (rest : List (TxInput ErrVal)),
    s.mode = .holding → s.seq = .run colors 0 →
    (s.answers = .ok :: rest →
      exec .start s = .next { s with
        seq := .run colors 1, writes := s.writes ++ [(markerWord, .ok)], bus := s.bus ++ [0, 0, 0, 0],
        answers := rest, draws := s.draws + 1 }) ∧
    (∀ (e : ErrVal) (j : Fin 5), s.answers = .fail e j :: rest →
      exec .start s = .next { s with
        seq := .idle, writes := s.writes ++ [(markerWord, .fail e)],
        bus := s.bus ++ List.replicate j.val 0, responses := s.responses ++ [.err e], answers := rest,
        draws := s.draws + 1 })

/-- From rules R52, R61, R82: FRAME, with the fields its colour bytes determine, is emitted at index i+1 for device i. -/
def Obligations.FrameIsEmittedForItsDevice : Prop :=
  ∀ (s : State) (colors : List ColorTriple) (i : Nat) (r g b : Byte) (rest : List (TxInput ErrVal)),
    s.mode = .holding → s.seq = .run colors (i + 1) → colors[i]? = some ⟨r, g, b⟩ →
    (s.answers = .ok :: rest →
      exec (.frame (~~~(b.extractLsb' 6 2)) (~~~(g.extractLsb' 6 2)) (~~~(r.extractLsb' 6 2)) b g r) s = .next
        { s with
          seq := .run colors (i + 2), writes := s.writes ++ [(deviceFrame ⟨r, g, b⟩, .ok)],
          bus := s.bus ++ [prefixByte r g b, b, g, r], answers := rest,
          draws := s.draws + 1 }) ∧
    (∀ (e : ErrVal) (j : Fin 5), s.answers = .fail e j :: rest →
      exec (.frame (~~~(b.extractLsb' 6 2)) (~~~(g.extractLsb' 6 2)) (~~~(r.extractLsb' 6 2)) b g r) s = .next
        { s with
          seq := .idle, writes := s.writes ++ [(deviceFrame ⟨r, g, b⟩, .fail e)],
          bus := s.bus ++ [prefixByte r g b, b, g, r].take j.val, responses := s.responses ++ [.err e],
          answers := rest, draws := s.draws + 1 })

/-- From rules R51, R61, R82: END at word index N+1 puts the zero word out and the command completes, or the write fails. -/
def Obligations.EndIsEmittedAtTheLastIndex : Prop :=
  ∀ (s : State) (colors : List ColorTriple) (rest : List (TxInput ErrVal)),
    s.mode = .holding → s.seq = .run colors (colors.length + 1) →
    (s.answers = .ok :: rest →
      exec .endMarker s = .next { s with
        seq := .idle, writes := s.writes ++ [(markerWord, .ok)], bus := s.bus ++ [0, 0, 0, 0],
        responses := s.responses ++ [.ok], answers := rest, draws := s.draws + 1 }) ∧
    (∀ (e : ErrVal) (j : Fin 5), s.answers = .fail e j :: rest →
      exec .endMarker s = .next { s with
        seq := .idle, writes := s.writes ++ [(markerWord, .fail e)],
        bus := s.bus ++ List.replicate j.val 0, responses := s.responses ++ [.err e], answers := rest,
        draws := s.draws + 1 })

/-- From rules R31, R34, R40: TRANSMIT of the word due is the one transport call of WRITE_STEP, and completes whenever the
transport answers. -/
def Obligations.TransmitCarriesTheWordDue : Prop :=
  ∀ (s : State) (colors : List ColorTriple) (k : Nat) (w : Word) (a : TxInput ErrVal) (rest : List (TxInput ErrVal)),
    s.mode = .holding → s.seq = .run colors k → wordAt colors k = some w → s.answers = a :: rest →
    ∃ t, exec (.transmit w) s = .next t ∧ exec .writeStep s = .next t ∧
      t.writes = s.writes ++ [(w, a.answer)] ∧ t.bus = s.bus ++ a.reached w ∧ t.answers = rest ∧
      t.mode = s.mode ∧ t.xport = s.xport ∧ t.encOut = s.encOut ∧ t.encInputs = s.encInputs ∧ t.offers = s.offers ∧
      (a = .ok → k ≤ colors.length → t.seq = .run colors (k + 1) ∧ t.responses = s.responses) ∧
      (a = .ok → k = colors.length + 1 → t.seq = .idle ∧ t.responses = s.responses ++ [.ok]) ∧
      (∀ (e : ErrVal) (j : Fin 5), a = .fail e j → t.seq = .idle ∧ t.responses = s.responses ++ [.err e])

/-- From rules R40, R61, R86: while a transaction runs, a wire word or transport call that is not the one due is refused. -/
def Obligations.WordsNotDueAreRefused : Prop :=
  ∀ (s : State) (colors : List ColorTriple) (k : Nat) (w : Word),
    s.mode = .holding → s.seq = .run colors k → wordAt colors k = some w →
    (k ≠ 0 → exec .start s = .refused .wordNotDue) ∧
    (k ≠ colors.length + 1 → exec .endMarker s = .refused .wordNotDue) ∧
    (∀ (nb ng nr : BitVec 2) (b g r : Byte), w ≠ frameWord nb ng nr b g r →
      exec (.frame nb ng nr b g r) s = .refused .wordNotDue) ∧
    (∀ w' : Word, w' ≠ w → exec (.transmit w') s = .refused .wordNotDue)

/-- From rules R12, R82, R86: no operation that writes is enabled while no transaction runs or after RELEASE. -/
def Obligations.NoWriteWithoutATransaction : Prop :=
  ∀ (i : Instr) (s : State),
    i = .writeStep ∨ i = .start ∨ i = .endMarker ∨ (∃ nb ng nr b g r, i = .frame nb ng nr b g r) ∨
      (∃ w, i = .transmit w) →
    (s.mode = .holding → s.seq = .idle → exec i s = .refused .noTransaction) ∧
    (s.mode = .released → exec i s = .refused .consumed)

/-- From rules R82, R130: without an answer the write due does not complete, and the model invents none. -/
def Obligations.WriteWaitsForTheTransport : Prop :=
  ∀ (s : State) (colors : List ColorTriple) (k : Nat) (w : Word),
    s.mode = .holding → s.seq = .run colors k → wordAt colors k = some w → s.answers = [] →
    exec .writeStep s = .fault .transportSilent ∧
    exec (.transmit w) s = .fault .transportSilent ∧
    (k = 0 → exec .start s = .fault .transportSilent) ∧
    (∀ (nb ng nr : BitVec 2) (b g r : Byte), 1 ≤ k → k ≤ colors.length → w = frameWord nb ng nr b g r →
      exec (.frame nb ng nr b g r) s = .fault .transportSilent) ∧
    (k = colors.length + 1 → exec .endMarker s = .fault .transportSilent)

/-- From rules R104, R106: after a failed write the controller is in `{Holding, Idle}` and takes the retry like any other
command, from word 0. -/
def Obligations.FailureLeavesTheControllerUsable : Prop :=
  ∀ (s : State) (colors : List ColorTriple) (k : Nat) (w : Word) (e : ErrVal) (j : Fin 5) (rest : List (TxInput ErrVal)),
    s.mode = .holding → s.seq = .run colors k → wordAt colors k = some w → s.answers = .fail e j :: rest →
    ∃ t, exec .writeStep s = .next t ∧ t.mode = .holding ∧ t.seq = .idle ∧ t.xport = s.xport ∧
      t.responses = s.responses ++ [.err e] ∧
      ∀ retry : List ColorTriple, exec (.setColors retry) t = .next { t with seq := .run retry 0 }

/-! ### The machine as a whole -/

/-- From rules R15, R58, R81, R87, R130, R131: a step runs the operation it decodes. An input of port ENC is served whatever
`mode`, `seq`, the offers and the answers are. With none, while a transaction runs the step is WRITE_STEP whatever the host
offers, and with no answer to come it stops, so that an offer waits and is not lost. With `seq` Idle it is the host's next
offer, taken off the offers. The model's own: an ENC input goes first (assumption 7), offers are a list (assumption 4), an
offer that is no command is refused (assumption 13), and the names of the stops (assumption 18). -/
def Obligations.StepRunsTheDecodedOperation : Prop :=
  ∀ s : State,
    (∀ (x : BitVec 24) (later : List (BitVec 24)) (i : Instr),
      s.encInputs = x :: later → decode (.enc x) = .ok i →
      step s = exec i { s with encInputs := later }) ∧
    (∀ (colors : List ColorTriple) (k : Nat), s.encInputs = [] → s.seq = .run colors k →
      step s = exec .writeStep s ∧
      (s.mode = .holding → k ≤ colors.length + 1 → s.answers = [] → step s = .fault .transportSilent)) ∧
    (∀ (o : Offer) (offers : List Offer) (i : Instr),
      s.encInputs = [] → s.seq = .idle → s.offers = o :: offers → decode (.offer o) = .ok i →
      step s = exec i { s with offers := offers }) ∧
    (∀ (o : Offer) (offers : List Offer) (why : DecodeError),
      s.encInputs = [] → s.seq = .idle → s.offers = o :: offers → decode (.offer o) = .error why →
      step s = .refused (.undecodable why)) ∧
    (s.encInputs = [] → s.seq = .idle → s.offers = [] → step s = .fault .runEnded)

/-- From rule R58: port ENC may be used at any time. In every state, Released, running or stuck on a silent transport, for
every type of error values, `m` steps serve the next `m` inputs of the port: each gives the frame of the colour in its bits
23:16, 15:8 and 7:0, and nothing else changes. That a waiting input goes before a step of the controller is the model's
(assumption 7), and so is the log `encOut` (assumption 3). -/
def Obligations.EncPortIsServedInEveryState : Prop :=
  ∀ (E : Type) (m : Nat) (s : Over.State E), m ≤ s.encInputs.length →
    runSteps m s = .next { s with
      encInputs := s.encInputs.drop m
      encOut := s.encOut ++ (s.encInputs.take m).map (fun x =>
        [prefixByte (x.extractLsb' 16 8) (x.extractLsb' 8 8) (x.extractLsb' 0 8), x.extractLsb' 0 8,
          x.extractLsb' 8 8, x.extractLsb' 16 8]) }

/-- From rule R86, "a transition that is not in the table does not exist": whatever goes on is a row of the table, with the
response and the write the table gives. What `TableRow` says beyond the rule's words is the model's: T1 from every state
with `seq` Idle, where the rule says "(start of a run)" (assumption 6), and its empty responses (assumption 9); T8 as a next
state with the offer at the head of the offers, where the rule says "no step" (assumption 4); the logs of results and the
count of draws (assumptions 3 and 8). -/
def Obligations.OnlyTheTablesTransitions : Prop :=
  ∀ (i : Instr) (s t : State), exec i s = .next t → TableRow i s t

/-- From rules R13, R22, R36, R40, R59, R86: every step keeps the invariant: a transaction runs only while Holding and with
`k ≤ N+1`, every word handed over is a marker or a colour's frame, and while a transaction runs the logs of answered writes
end in exactly its first `k` words. That `bus` holds the answered writes only, and the bytes of a word that waits for its
answer are in `busObserved` instead, is the model's (assumption 8); rule R83 lets some of those bytes be out already. -/
def Obligations.StepKeepsTheInvariant : Prop :=
  ∀ s t : State, s.Inv → step s = .next t → t.Inv

/-- The state after reset meets the invariant. -/
def Obligations.ResetMeetsTheInvariant : Prop := State.reset.Inv

/-- From rules R7, R12: the type of error values is an argument, and the block never looks inside an error value or a handle.
For all types `E` and `F`, renaming the values, not even one to one, before a step is renaming them after it; and the
machine the host runs is that machine at the host's `E`. -/
def Obligations.TokensAreNeverInspected : Prop :=
  (∀ (E F : Type) (f : E → F) (g : Handle → Handle) (s : Over.State E),
    stepOf (s.rename f g) = renameOutcome f g (stepOf s)) ∧
  (∀ s : State, step s = stepOf s) ∧ (∀ (i : Instr) (s : State), exec i s = execOf i s)

/-- From rules R21, R22: the control of the block does not depend on the logs. Steps of two states that differ in the logs
only end in the same way, and where they go on they agree again on `mode`, `xport`, `seq` and the environment's inputs. What
the two steps put out is the next statement's. -/
def Obligations.LogsAreOutputs : Prop :=
  ∀ s t : State, SameBlock s t → OutcomesAgree SameBlock (step s) (step t)

/-- From rules R18, R21, R22: what the block puts out does not depend on the logs. Two states that differ in the logs only put
out the same in a step: the same words handed over with the same answers, the same bytes on the bus, the same responses and
results; or both begin a new run, with fresh logs. And the word a step writes is a function of the operand of the command
being carried out and of the word index. -/
def Obligations.OutputsDoNotDependOnTheLogs : Prop :=
  (∀ s t s' t' : State, SameBlock s t → step s = .next s' → step t = .next t' → SameOutputs s s' t t') ∧
  (∀ (s t : State) (entry : Word × Answer ErrVal), step s = .next t → t.writes = s.writes ++ [entry] →
    ∃ colors k, s.seq = .run colors k ∧ wordAt colors k = some entry.1)

/-- From rules R30, R40: only the operations that write touch the transport and its logs, and each takes exactly one answer;
NEW alone starts the logs afresh. -/
def Obligations.OnlyWritesReachTheTransport : Prop :=
  ∀ (i : Instr) (s t : State), exec i s = .next t →
    (∃ colors k w a, s.seq = .run colors k ∧ wordAt colors k = some w ∧ Emits i colors k w ∧
      s.answers = a :: t.answers ∧ t.writes = s.writes ++ [(w, a.answer)] ∧ t.bus = s.bus ++ a.reached w) ∨
    ((∃ h, i = .new h) ∧ t.writes = [] ∧ t.bus = [] ∧ t.answers = s.answers) ∨
    ((∀ colors k w, ¬ Emits i colors k w) ∧ t.writes = s.writes ∧ t.bus = s.bus ∧ t.answers = s.answers)

/-- From rules R11, R12, R85, R126: after RELEASE, however many steps the machine makes, as long as the host begins no new
run the controller stays Released and nothing reaches the transport or the host. -/
def Obligations.ReleasedIsPermanent : Prop :=
  ∀ (E : Type) (m : Nat) (s t : Over.State E), s.mode = .released → (∀ h : Handle, Offer.rst h ∉ s.offers) →
    runSteps m s = .next t →
    t.mode = .released ∧ t.seq = s.seq ∧ t.writes = s.writes ∧ t.bus = s.bus ∧ t.responses = s.responses

/-- From rules R82, R83, R87 (a), R130: a transaction the transport does not answer stands still for ever, however many steps
the machine makes for port ENC: no response, no write, no move of `k`, nothing more to observe on `bus`, and a command that
waits is not lost. Once port ENC has no input left the machine stops. That the bytes of the waiting word are a free value in
`busObserved`, not in `bus`, is the model's (assumption 8), and so is the stop's name (assumption 18). -/
def Obligations.SilentTransportHoldsTheBlock : Prop :=
  ∀ (E : Type) (s : Over.State E) (colors : List ColorTriple) (k : Nat), s.seq = .run colors k → s.answers = [] →
    (∀ (m : Nat) (t : Over.State E), runSteps m s = .next t →
      t.mode = s.mode ∧ t.xport = s.xport ∧ t.seq = .run colors k ∧ t.writes = s.writes ∧ t.bus = s.bus ∧
        t.responses = s.responses ∧ t.offers = s.offers ∧ t.answers = [] ∧ t.busObserved = s.busObserved) ∧
    (∀ m : Nat, s.mode = .holding → k ≤ colors.length + 1 → s.encInputs.length < m →
      runSteps m s = .fault .transportSilent)

/-- From rules R22, R83: which bytes of a word that waits for its answer are on the bus is not specified. An observer finds
the bytes of the answered writes and then some of the bytes of that word, in order; each choice of bytes, from none to all
four, is one that the free value may make; and where no word waits, an observer finds the answered writes alone. That bytes
keep their order is the model's (assumption 8). -/
def Obligations.BytesOfAWaitingWordAreFree : Prop :=
  ∀ (E : Type) (s : Over.State E),
    (∀ (colors : List ColorTriple) (k : Nat) (w : Word), s.seq = .run colors k → s.answers = [] →
      wordAt colors k = some w →
      s.busObserved = s.busWith (Config.unansweredBytes s.draws) ∧
      (∀ mask, ∃ out : List Byte, out.Sublist [w.b0, w.b1, w.b2, w.b3] ∧ s.busWith mask = s.bus ++ out) ∧
      (∀ out : List Byte, out.Sublist [w.b0, w.b1, w.b2, w.b3] → ∃ mask, s.busWith mask = s.bus ++ out)) ∧
    (s.seq = .idle ∨ s.answers ≠ [] → s.busObserved = s.bus)

/-- From rule R83, which is itself derived from R81 and R82: the outcome of a whole SET_COLORS accepted in `{Holding, Idle}`:
success, failure at write K, or no answer at write K, which is decided by the transport's answers alone and is exactly one
of the three. Inputs waiting at port ENC are served first (assumption 7) and change none of it. With no answer an observer
finds on `bus` the first K-1 words and an unspecified part of word K-1, the free value (assumption 8). -/
def Obligations.WholeSetColorsOutcome : Prop :=
  (∀ (E : Type) (s : Over.State E) (colors : List ColorTriple) (offers : List Offer), s.mode = .holding → s.seq = .idle →
    s.offers = cmdSetColors colors :: offers →
    (∀ later : List (TxInput E), s.answers = List.replicate (colors.length + 2) .ok ++ later →
      runSteps (s.encInputs.length + (1 + (colors.length + 2))) s = .next { s with
        offers := offers, answers := later, writes := s.writes ++ okWrites colors (colors.length + 2),
        bus := s.bus ++ transaction colors, responses := s.responses ++ [.ok],
        encInputs := [], encOut := s.encOut ++ s.encInputs.map encResult,
        draws := s.draws + (colors.length + 2) }) ∧
    (∀ (n : Nat) (e : E) (j : Fin 5) (later : List (TxInput E)), n < colors.length + 2 →
      s.answers = List.replicate n .ok ++ .fail e j :: later →
      ∃ w, wordAt colors n = some w ∧
        runSteps (s.encInputs.length + (1 + (n + 1))) s = .next { s with
          offers := offers, answers := later, writes := s.writes ++ okWrites colors n ++ [(w, .fail e)],
          bus := s.bus ++ (transaction colors).take (4 * n + j.val),
          responses := s.responses ++ [.err e],
          encInputs := [], encOut := s.encOut ++ s.encInputs.map encResult, draws := s.draws + (n + 1) }) ∧
    (∀ n : Nat, n < colors.length + 2 → s.answers = List.replicate n .ok →
      ∃ t w, t = { s with
          seq := .run colors n, offers := offers, answers := [], writes := s.writes ++ okWrites colors n,
          bus := s.bus ++ (transaction colors).take (4 * n),
          encInputs := [], encOut := s.encOut ++ s.encInputs.map encResult, draws := s.draws + n } ∧
        runSteps (s.encInputs.length + (1 + n)) s = .next t ∧
        wordAt colors n = some w ∧
        s.busObserved = s.bus ∧
        t.busObserved = s.bus ++ (transaction colors).take (4 * n) ++
          maskedBytes (Config.unansweredBytes t.draws) w ∧
        ∀ m : Nat, runSteps (m + 1) t = .fault .transportSilent)) ∧
  (∀ (E : Type) (colors : List ColorTriple) (answers : List (TxInput E)),
    (∃ later : List (TxInput E), answers = List.replicate (colors.length + 2) .ok ++ later) ∨
    (∃ (n : Nat) (e : E) (j : Fin 5) (later : List (TxInput E)), n < colors.length + 2 ∧
      answers = List.replicate n .ok ++ TxInput.fail e j :: later) ∨
    (∃ n, n < colors.length + 2 ∧ answers = List.replicate n .ok)) ∧
  (∀ (E : Type) (colors : List ColorTriple) (n n' : Nat) (e : E) (j : Fin 5) (later later' : List (TxInput E)),
    n < colors.length + 2 → n' < colors.length + 2 →
    List.replicate (colors.length + 2) TxInput.ok ++ later ≠ List.replicate n .ok ++ .fail e j :: later' ∧
    List.replicate (colors.length + 2) TxInput.ok ++ later ≠ List.replicate n .ok ∧
    List.replicate n' TxInput.ok ++ .fail e j :: later' ≠ List.replicate n .ok)

/-- From rule R38: a failed write puts out the first `j` bytes of its word, `j` in 0..4; a failed SET_COLORS leaves a prefix
of the transaction on the bus; and every prefix, from nothing to all of it, is possible. The source says only that some
bytes may have reached the bus: that they form a prefix in order and that `j` may be 4 is the spec's reading D5 (assumption
5), on which the set of prefixes rests. -/
def Obligations.BusAfterFailureIsAnyPrefix : Prop :=
  (∀ (s : State) (colors : List ColorTriple) (k : Nat) (w : Word) (e : ErrVal) (j : Fin 5)
    (rest : List (TxInput ErrVal)),
    s.mode = .holding → s.seq = .run colors k → wordAt colors k = some w → s.answers = .fail e j :: rest →
    ∃ t, exec .writeStep s = .next t ∧ t.bus = s.bus ++ [w.b0, w.b1, w.b2, w.b3].take j.val) ∧
  (∀ (E : Type) (s : Over.State E) (colors : List ColorTriple) (offers : List Offer), s.mode = .holding → s.seq = .idle →
    s.offers = cmdSetColors colors :: offers →
    (∀ (n : Nat) (e : E) (j : Fin 5) (later : List (TxInput E)), n < colors.length + 2 →
      s.answers = List.replicate n .ok ++ .fail e j :: later →
      ∃ t m, runSteps (s.encInputs.length + (n + 2)) s = .next t ∧ m ≤ 4 * (colors.length + 2) ∧
        t.bus = s.bus ++ (transaction colors).take m ∧ t.responses = s.responses ++ [.err e]) ∧
    (∀ (e : E) (m : Nat), m ≤ 4 * (colors.length + 2) →
      ∃ (answers : List (TxInput E)) (steps : Nat) (t : Over.State E),
        runSteps steps { s with answers := answers } = .next t ∧
        t.bus = s.bus ++ (transaction colors).take m ∧ t.responses = s.responses ++ [.err e] ∧
        t.mode = .holding ∧ t.seq = .idle))

/-- From rules R21, R74: the same SET_COLORS twice, every write accepted, puts the same bytes on the bus twice, whatever
happened before. -/
def Obligations.RepeatedCommandSameBytes : Prop :=
  ∀ (E : Type) (s : Over.State E) (colors : List ColorTriple) (offers : List Offer) (later : List (TxInput E)),
    s.mode = .holding → s.seq = .idle →
    s.offers = cmdSetColors colors :: cmdSetColors colors :: offers →
    s.answers = List.replicate (2 * (colors.length + 2)) .ok ++ later →
    ∃ t, runSteps (s.encInputs.length + 2 * (colors.length + 3)) s = .next t ∧
      t.bus = s.bus ++ transaction colors ++ transaction colors ∧
      t.responses = s.responses ++ [.ok, .ok] ∧ t.mode = .holding ∧ t.seq = .idle

/-- From rules R57, R100, R103: a command is answered once, by the step that completes it: a response is appended exactly
when a transaction ends or RELEASE is accepted. The fields of that response: accepted writes end in status 0 and no `err`; a
failed write in status 1 with `err` the transport's own value; RELEASE has the handle and no status. -/
def Obligations.OneResponsePerCommand : Prop :=
  ∀ (i : Instr) (s t : State), exec i s = .next t → (∀ h : Handle, i ≠ .new h) →
    ((∃ r, t.responses = s.responses ++ [r]) ↔
      ((∃ colors k, s.seq = .run colors k) ∧ t.seq = .idle) ∨ (s.mode = .holding ∧ t.mode = .released)) ∧
    ((¬ ∃ r, t.responses = s.responses ++ [r]) → t.responses = s.responses) ∧
    (∀ e : ErrVal, t.responses = s.responses ++ [.err e] → ∃ j, s.answers = .fail e j :: t.answers) ∧
    (∀ r, t.responses = s.responses ++ [r] →
      (∀ colors k, s.seq = .run colors k →
        r.handleVal = none ∧
        ((s.answers = .ok :: t.answers ∧ r.status = some 0#1 ∧ r.errVal = none) ∨
          (∃ e j, s.answers = .fail e j :: t.answers ∧ r.status = some 1#1 ∧ r.errVal = some e))) ∧
      (s.seq = .idle →
        i = .release ∧ r.status = none ∧ r.errVal = none ∧ r.handleVal = some s.xport))
end

