-- ==== Sys2Proof/Laws/Operands.lean ====
section
/-!
SUPPORT. The small lemmas of the words of a transaction, of masked bytes and of packed colours.
-/

namespace Sys2Proof

@[simp] theorem Word.length_bytes (w : Word) : w.bytes.length = 4 := rfl

@[simp] theorem unpackColor_packColor (c : ColorTriple) : unpackColor (packColor c) = c := by
  have hr : (packColor c).extractLsb' 16 8 = c.r := by
    ext i; simp [packColor]; grind
  have hg : (packColor c).extractLsb' 8 8 = c.g := by
    ext i; simp [packColor]; grind
  have hb : (packColor c).extractLsb' 0 8 = c.b := by
    ext i; simp [packColor]; grind
  simp [unpackColor, hr, hg, hb]

namespace Machine

@[simp] theorem maskedBytes_none (w : Word) : maskedBytes 0#4 w = [] := rfl

@[simp] theorem maskedBytes_all (w : Word) : maskedBytes 0b1111#4 w = w.bytes := rfl

/-- A mask picks some of the bytes of a word, in transport order. -/
theorem maskedBytes_sublist (mask : BitVec 4) (w : Word) : (maskedBytes mask w).Sublist w.bytes := by
  unfold maskedBytes Word.bytes
  cases mask.getLsbD 0 <;> cases mask.getLsbD 1 <;> cases mask.getLsbD 2 <;> cases mask.getLsbD 3 <;> simp

@[simp] theorem wordAt_zero (colors : List ColorTriple) : wordAt colors 0 = some markerWord := by
  simp [wordAt]

@[simp] theorem wordAt_last (colors : List ColorTriple) :
    wordAt colors (colors.length + 1) = some markerWord := by
  simp [wordAt]

theorem wordAt_frame (colors : List ColorTriple) (i : Nat) (h : i < colors.length) :
    wordAt colors (i + 1) = some (deviceFrame colors[i]) := by
  have h' : ¬ (i + 1 = 0 ∨ i + 1 = colors.length + 1) := by omega
  rw [wordAt, if_neg h']
  simp [h]

theorem wordAt_beyond (colors : List ColorTriple) (k : Nat) (h : colors.length + 1 < k) :
    wordAt colors k = none := by
  have h' : ¬ (k = 0 ∨ k = colors.length + 1) := by omega
  rw [wordAt, if_neg h', List.getElem?_eq_none (by omega)]
  rfl

/-- A word of a transaction has an index up to N+1 and is the MARKER word or the frame of one of its colours. -/
theorem wordAt_cases {colors : List ColorTriple} {k : Nat} {w : Word} (h : wordAt colors k = some w) :
    k ≤ colors.length + 1 ∧ (w = markerWord ∨ ∃ c ∈ colors, w = deviceFrame c) := by
  have hk : k ≤ colors.length + 1 := by
    by_contra hgt
    rw [wordAt_beyond colors k (by omega)] at h
    cases h
  refine ⟨hk, ?_⟩
  by_cases hm : k = 0 ∨ k = colors.length + 1
  · rw [wordAt, if_pos hm] at h
    exact .inl (Option.some.inj h).symm
  · obtain ⟨i, rfl⟩ : ∃ i, k = i + 1 := ⟨k - 1, by omega⟩
    have hi : i < colors.length := by omega
    rw [wordAt_frame colors i hi] at h
    exact .inr ⟨colors[i], List.getElem_mem hi, (Option.some.inj h).symm⟩

end Machine
end Sys2Proof
end

