-- ==== Sys2Proof/Laws/State.lean ====
section
/-!
SUPPORT. One lemma per field and shared operation, so that no proof unfolds a record update.
-/

namespace Sys2Proof.Machine

variable {E : Type}

section fresh
variable (h : Handle)
@[simp] theorem fresh_mode : (State.fresh h : Over.State E).mode = .holding := rfl
@[simp] theorem fresh_xport : (State.fresh h : Over.State E).xport = h := rfl
@[simp] theorem fresh_seq : (State.fresh h : Over.State E).seq = .idle := rfl
@[simp] theorem fresh_writes : (State.fresh h : Over.State E).writes = [] := rfl
@[simp] theorem fresh_bus : (State.fresh h : Over.State E).bus = [] := rfl
@[simp] theorem fresh_responses : (State.fresh h : Over.State E).responses = [] := rfl
@[simp] theorem fresh_encOut : (State.fresh h : Over.State E).encOut = [] := rfl
@[simp] theorem fresh_encInputs : (State.fresh h : Over.State E).encInputs = [] := rfl
@[simp] theorem fresh_offers : (State.fresh h : Over.State E).offers = [] := rfl
@[simp] theorem fresh_answers : (State.fresh h : Over.State E).answers = [] := rfl
@[simp] theorem fresh_draws : (State.fresh h : Over.State E).draws = 0 := rfl
end fresh

section memWrite
variable (w : Word) (a : TxInput E) (s : Over.State E)
@[simp] theorem memWrite_mode : (memWrite w a s).mode = s.mode := rfl
@[simp] theorem memWrite_xport : (memWrite w a s).xport = s.xport := rfl
@[simp] theorem memWrite_seq : (memWrite w a s).seq = s.seq := rfl
@[simp] theorem memWrite_writes : (memWrite w a s).writes = s.writes ++ [(w, a.answer)] := rfl
@[simp] theorem memWrite_bus : (memWrite w a s).bus = s.bus ++ a.reached w := rfl
@[simp] theorem memWrite_responses : (memWrite w a s).responses = s.responses := rfl
@[simp] theorem memWrite_encOut : (memWrite w a s).encOut = s.encOut := rfl
@[simp] theorem memWrite_encInputs : (memWrite w a s).encInputs = s.encInputs := rfl
@[simp] theorem memWrite_offers : (memWrite w a s).offers = s.offers := rfl
@[simp] theorem memWrite_answers : (memWrite w a s).answers = s.answers := rfl
@[simp] theorem memWrite_draws : (memWrite w a s).draws = s.draws + 1 := rfl
end memWrite

section respond
variable (r : Response E) (s : Over.State E)
@[simp] theorem respond_mode : (respond r s).mode = s.mode := rfl
@[simp] theorem respond_xport : (respond r s).xport = s.xport := rfl
@[simp] theorem respond_seq : (respond r s).seq = s.seq := rfl
@[simp] theorem respond_writes : (respond r s).writes = s.writes := rfl
@[simp] theorem respond_bus : (respond r s).bus = s.bus := rfl
@[simp] theorem respond_responses : (respond r s).responses = s.responses ++ [r] := rfl
@[simp] theorem respond_encOut : (respond r s).encOut = s.encOut := rfl
@[simp] theorem respond_encInputs : (respond r s).encInputs = s.encInputs := rfl
@[simp] theorem respond_offers : (respond r s).offers = s.offers := rfl
@[simp] theorem respond_answers : (respond r s).answers = s.answers := rfl
@[simp] theorem respond_draws : (respond r s).draws = s.draws := rfl
end respond

section setSeq
variable (q : Seq) (s : Over.State E)
@[simp] theorem setSeq_mode : (setSeq q s).mode = s.mode := rfl
@[simp] theorem setSeq_xport : (setSeq q s).xport = s.xport := rfl
@[simp] theorem setSeq_seq : (setSeq q s).seq = q := rfl
@[simp] theorem setSeq_writes : (setSeq q s).writes = s.writes := rfl
@[simp] theorem setSeq_bus : (setSeq q s).bus = s.bus := rfl
@[simp] theorem setSeq_responses : (setSeq q s).responses = s.responses := rfl
@[simp] theorem setSeq_encOut : (setSeq q s).encOut = s.encOut := rfl
@[simp] theorem setSeq_encInputs : (setSeq q s).encInputs = s.encInputs := rfl
@[simp] theorem setSeq_offers : (setSeq q s).offers = s.offers := rfl
@[simp] theorem setSeq_answers : (setSeq q s).answers = s.answers := rfl
@[simp] theorem setSeq_draws : (setSeq q s).draws = s.draws := rfl
end setSeq

section putResult
variable (bytes : List Byte) (s : Over.State E)
@[simp] theorem putResult_mode : (putResult bytes s).mode = s.mode := rfl
@[simp] theorem putResult_xport : (putResult bytes s).xport = s.xport := rfl
@[simp] theorem putResult_seq : (putResult bytes s).seq = s.seq := rfl
@[simp] theorem putResult_writes : (putResult bytes s).writes = s.writes := rfl
@[simp] theorem putResult_bus : (putResult bytes s).bus = s.bus := rfl
@[simp] theorem putResult_responses : (putResult bytes s).responses = s.responses := rfl
@[simp] theorem putResult_encOut : (putResult bytes s).encOut = s.encOut ++ [bytes] := rfl
@[simp] theorem putResult_encInputs : (putResult bytes s).encInputs = s.encInputs := rfl
@[simp] theorem putResult_offers : (putResult bytes s).offers = s.offers := rfl
@[simp] theorem putResult_answers : (putResult bytes s).answers = s.answers := rfl
@[simp] theorem putResult_draws : (putResult bytes s).draws = s.draws := rfl
end putResult

section handBack
variable (s : Over.State E)
@[simp] theorem handBack_mode : (handBack s).mode = .released := rfl
@[simp] theorem handBack_xport : (handBack s).xport = s.xport := rfl
@[simp] theorem handBack_seq : (handBack s).seq = s.seq := rfl
@[simp] theorem handBack_writes : (handBack s).writes = s.writes := rfl
@[simp] theorem handBack_bus : (handBack s).bus = s.bus := rfl
@[simp] theorem handBack_responses : (handBack s).responses = s.responses ++ [.handle s.xport] := rfl
@[simp] theorem handBack_encOut : (handBack s).encOut = s.encOut := rfl
@[simp] theorem handBack_encInputs : (handBack s).encInputs = s.encInputs := rfl
@[simp] theorem handBack_offers : (handBack s).offers = s.offers := rfl
@[simp] theorem handBack_answers : (handBack s).answers = s.answers := rfl
@[simp] theorem handBack_draws : (handBack s).draws = s.draws := rfl
end handBack

section beginTransaction
variable (colors : List ColorTriple) (s : Over.State E)
@[simp] theorem beginTransaction_mode : (beginTransaction colors s).mode = s.mode := rfl
@[simp] theorem beginTransaction_xport : (beginTransaction colors s).xport = s.xport := rfl
@[simp] theorem beginTransaction_seq : (beginTransaction colors s).seq = .run colors 0 := rfl
@[simp] theorem beginTransaction_writes : (beginTransaction colors s).writes = s.writes := rfl
@[simp] theorem beginTransaction_bus : (beginTransaction colors s).bus = s.bus := rfl
@[simp] theorem beginTransaction_responses : (beginTransaction colors s).responses = s.responses := rfl
@[simp] theorem beginTransaction_encOut : (beginTransaction colors s).encOut = s.encOut := rfl
@[simp] theorem beginTransaction_encInputs : (beginTransaction colors s).encInputs = s.encInputs := rfl
@[simp] theorem beginTransaction_offers : (beginTransaction colors s).offers = s.offers := rfl
@[simp] theorem beginTransaction_answers : (beginTransaction colors s).answers = s.answers := rfl
@[simp] theorem beginTransaction_draws : (beginTransaction colors s).draws = s.draws := rfl
end beginTransaction

section construct
variable (h : Handle) (s : Over.State E)
@[simp] theorem construct_mode : (construct h s).mode = .holding := rfl
@[simp] theorem construct_xport : (construct h s).xport = h := rfl
@[simp] theorem construct_seq : (construct h s).seq = .idle := rfl
@[simp] theorem construct_writes : (construct h s).writes = [] := rfl
@[simp] theorem construct_bus : (construct h s).bus = [] := rfl
@[simp] theorem construct_responses : (construct h s).responses = [] := rfl
@[simp] theorem construct_encOut : (construct h s).encOut = [] := rfl
@[simp] theorem construct_encInputs : (construct h s).encInputs = s.encInputs := rfl
@[simp] theorem construct_offers : (construct h s).offers = s.offers := rfl
@[simp] theorem construct_answers : (construct h s).answers = s.answers := rfl
@[simp] theorem construct_draws : (construct h s).draws = s.draws := rfl
end construct

end Sys2Proof.Machine
end

