-- ==== Sys2Proof/Laws/Ops.lean ====
section
/-!
SUPPORT. One lemma per shared operation that says once everything it can do, and the converse that makes it run. The machine
at the host's type of error values is the generic one.
-/

namespace Sys2Proof.Machine

variable {E : Type}

/-- `exec` is the generic `execOf`. -/
theorem exec_eq_execOf (i : Instr) (s : State) : exec i s = execOf i s := by
  cases i <;> rfl

/-- `step` is the generic `stepOf`. -/
theorem step_eq_stepOf (s : State) : step s = stepOf s := by
  have hx : exec = execOf := funext fun i => funext (exec_eq_execOf i)
  unfold step stepOf
  rw [hx]
  cases fetch s <;> rfl

/-- The three things the sequencer does with an answer. -/
theorem afterAnswer_cases (colors : List ColorTriple) (k : Nat) (a : TxInput E) (s : Over.State E) :
    (a = .ok ∧ k = colors.length + 1 ∧ afterAnswer colors k a s = respond .ok (setSeq .idle s)) ∨
    (a = .ok ∧ k ≠ colors.length + 1 ∧ afterAnswer colors k a s = setSeq (.run colors (k + 1)) s) ∨
    (∃ e j, a = .fail e j ∧ afterAnswer colors k a s = respond (.err e) (setSeq .idle s)) := by
  cases a with
  | ok =>
    by_cases hk : k = colors.length + 1
    · exact .inl ⟨rfl, hk, by simp [afterAnswer, hk]⟩
    · exact .inr (.inl ⟨rfl, hk, by simp [afterAnswer, hk]⟩)
  | fail e j => exact .inr (.inr ⟨e, j, rfl, rfl⟩)

/-- A write goes on only with an answer, and then does what the answer says. -/
theorem writeWord_next {w : Word} {colors : List ColorTriple} {k : Nat} {s t : Over.State E}
    (h : writeWord w colors k s = .next t) :
    ∃ a rest, s.answers = a :: rest ∧ t = afterAnswer colors k a (memWrite w a { s with answers := rest }) := by
  unfold writeWord at h
  split at h
  · cases h
  · next a rest ha =>
    cases h
    exact ⟨a, rest, ha, rfl⟩

/-- Everything `emit` can do when it goes on. -/
theorem emit_next {due : List ColorTriple → Nat → Word → Bool} {s t : Over.State E} (h : emit due s = .next t) :
    ∃ colors k w a rest, s.mode = .holding ∧ s.seq = .run colors k ∧ wordAt colors k = some w ∧
      due colors k w = true ∧ s.answers = a :: rest ∧
      t = afterAnswer colors k a (memWrite w a { s with answers := rest }) := by
  unfold emit at h
  split at h
  · cases h
  · cases h
  · next colors k hm hq =>
    split at h
    · cases h
    · next w hw =>
      split at h
      · next hd =>
        obtain ⟨a, rest, ha, rfl⟩ := writeWord_next h
        exact ⟨colors, k, w, a, rest, hm, hq, hw, hd, ha, rfl⟩
      · cases h

/-- When `emit` goes on. -/
theorem emit_eq {due : List ColorTriple → Nat → Word → Bool} {s : Over.State E} {colors : List ColorTriple} {k : Nat}
    {w : Word} {a : TxInput E} {rest : List (TxInput E)} (hm : s.mode = .holding) (hq : s.seq = .run colors k)
    (hw : wordAt colors k = some w) (hd : due colors k w = true) (ha : s.answers = a :: rest) :
    emit due s = .next (afterAnswer colors k a (memWrite w a { s with answers := rest })) := by
  simp [emit, hm, hq, hw, hd, writeWord, ha]

/-- When `emit` waits for ever. -/
theorem emit_silent {due : List ColorTriple → Nat → Word → Bool} {s : Over.State E} {colors : List ColorTriple} {k : Nat}
    {w : Word} (hm : s.mode = .holding) (hq : s.seq = .run colors k) (hw : wordAt colors k = some w)
    (hd : due colors k w = true) (ha : s.answers = []) : emit due s = .fault .transportSilent := by
  simp [emit, hm, hq, hw, hd, writeWord, ha]

/-- Everything `accept` can do when it goes on. -/
theorem accept_next {o : Offer} {effect : Over.State E → Over.State E} {s t : Over.State E} (h : accept o effect s = .next t) :
    s.mode = .holding ∧
      ((∃ colors k, s.seq = .run colors k ∧ t = { s with offers := o :: s.offers }) ∨
        (s.seq = .idle ∧ t = effect s)) := by
  unfold accept at h
  split at h
  · cases h
  · next colors k hm hq => cases h; exact ⟨hm, .inl ⟨colors, k, hq, rfl⟩⟩
  · next hm hq => cases h; exact ⟨hm, .inr ⟨hq, rfl⟩⟩

/-- Everything NEW can do when it goes on. -/
theorem newOf_next {h : Handle} {s t : Over.State E} (hx : newOf h s = .next t) :
    s.seq = .idle ∧ t = construct h s := by
  unfold newOf at hx
  split at hx
  · next hq => cases hx; exact ⟨hq, rfl⟩
  · cases hx

/-- While no word waits for an answer, an observer finds on `bus` the bytes of the answered writes. -/
theorem busObserved_of_not_waiting {s : Over.State E} (h : s.waitingWord = none) : s.busObserved = s.bus := by
  simp [Over.State.busObserved, Over.State.busWith, h]

/-- While a word waits for an answer, an observer also finds the bytes of it that the free value picks. -/
theorem busObserved_of_waiting {s : Over.State E} {w : Word} (h : s.waitingWord = some w) :
    s.busObserved = s.bus ++ maskedBytes (Config.unansweredBytes s.draws) w := by
  simp [Over.State.busObserved, Over.State.busWith, h]

/-- The word due waits when no answer is to come. -/
theorem waitingWord_of_silent {s : Over.State E} {colors : List ColorTriple} {k : Nat} (hq : s.seq = .run colors k)
    (ha : s.answers = []) : s.waitingWord = wordAt colors k := by
  simp [Over.State.waitingWord, hq, ha]

/-- Where the next operation comes from: port ENC, the sequencer, or the head of the host's offers. -/
theorem fetch_next {s s' : Over.State E} {i : Instr} (h : fetch s = .next (i, s')) :
    (∃ x later, s.encInputs = x :: later ∧ i = decodeEnc x ∧ s' = { s with encInputs := later }) ∨
    (∃ colors k, s.encInputs = [] ∧ s.seq = .run colors k ∧ i = .writeStep ∧ s' = s) ∨
    (∃ o rest, s.encInputs = [] ∧ s.seq = .idle ∧ s.offers = o :: rest ∧ decodeOffer o = .ok i ∧
      s' = { s with offers := rest }) := by
  unfold fetch at h
  split at h
  · next x later hx => cases h; exact .inl ⟨x, later, hx, rfl, rfl⟩
  · next hx =>
    split at h
    · next colors k hq => cases h; exact .inr (.inl ⟨colors, k, hx, hq, rfl, rfl⟩)
    · next hq =>
      split at h
      · cases h
      · next o rest ho =>
        split at h
        · next j hd => cases h; exact .inr (.inr ⟨o, rest, hx, hq, ho, hd, rfl⟩)
        · cases h

/-- Port ENC is served whatever the controller does. -/
theorem fetch_enc {s : Over.State E} {x : BitVec 24} {later : List (BitVec 24)} (h : s.encInputs = x :: later) :
    fetch s = .next (decodeEnc x, { s with encInputs := later }) := by
  simp [fetch, h]

/-- While a transaction runs and port ENC has no input, the next operation is WRITE_STEP. -/
theorem fetch_write {s : Over.State E} {colors : List ColorTriple} {k : Nat} (he : s.encInputs = [])
    (hq : s.seq = .run colors k) : fetch s = .next (.writeStep, s) := by
  simp [fetch, he, hq]

/-- In a state with `seq` Idle and no input at port ENC, the next operation is the host's next offer. -/
theorem fetch_offer {s : Over.State E} {o : Offer} {rest : List Offer} {i : Instr} (he : s.encInputs = [])
    (hq : s.seq = .idle) (ho : s.offers = o :: rest) (hd : decodeOffer o = .ok i) :
    fetch s = .next (i, { s with offers := rest }) := by
  simp [fetch, he, hq, ho, hd]

/-- A step that goes on carries out the operation `fetch` found. -/
theorem stepOf_next {s t : Over.State E} (h : stepOf s = .next t) :
    ∃ i s', fetch s = .next (i, s') ∧ execOf i s' = .next t := by
  unfold stepOf at h
  split at h
  · next i s' hf => exact ⟨i, s', hf, h⟩
  · cases h
  · cases h

/-- A step carries out the operation `fetch` finds. -/
theorem stepOf_of_fetch {s s' : Over.State E} {i : Instr} (h : fetch s = .next (i, s')) : stepOf s = execOf i s' := by
  simp [stepOf, h]

end Sys2Proof.Machine
end

