-- ==== Sys2Proof/Laws/PerInstr.lean ====
section
/-!
SUPPORT. A family of statements about each operation as syntax: the packet that `encode` gives has the format the
operation map lists (rule R61).
-/

namespace Sys2Proof.Laws

/-- The column "format" of rule R61. -/
inductive WireFormat where
  | w32
  | cmd
  | enc
  | rst
  | tx
  | none
deriving DecidableEq, Repr

/-- The format of a packet. -/
def formatOfPacket : Packet → WireFormat
  | .offer (.rst _) => .rst
  | .offer (.cmd _ _ _) => .cmd
  | .enc _ => .enc
  | .w32 _ _ => .w32
  | .tx _ => .tx

/-- The format rule R61 lists for an operation. -/
def formatOfInstr : Instr → WireFormat
  | .start => .w32
  | .frame _ _ _ _ _ _ => .w32
  | .endMarker => .w32
  | .encodeDeviceFrame _ _ _ => .enc
  | .encodeTransaction _ => .none
  | .new _ => .rst
  | .setColors _ => .cmd
  | .writeStep => .none
  | .setColor _ _ _ => .cmd
  | .release => .cmd
  | .transmit _ => .tx

namespace Format

/-- An operation has a packet exactly when rule R61 lists a format for it, and the packet has that format. -/
def Statement (i : Instr) : Prop :=
  (formatOfInstr i = .none ↔ encode i = .none) ∧ ∀ p, encode i = some p → formatOfPacket p = formatOfInstr i

theorem of_encode {i : Instr} {p : Packet} (he : encode i = some p) (hf : formatOfPacket p = formatOfInstr i)
    (hn : formatOfInstr i ≠ .none) : Statement i := by
  refine ⟨by simp [he, hn], fun q hq => ?_⟩
  rw [he] at hq
  cases hq
  exact hf

theorem start : Statement .start := of_encode rfl rfl (by decide)
theorem frame (nb ng nr : BitVec 2) (b g r : Byte) : Statement (.frame nb ng nr b g r) :=
  of_encode rfl rfl (by simp [formatOfInstr])
theorem endMarker : Statement .endMarker := of_encode rfl rfl (by decide)
theorem encodeDeviceFrame (r g b : Byte) : Statement (.encodeDeviceFrame r g b) :=
  of_encode rfl rfl (by simp [formatOfInstr])
theorem encodeTransaction (colors : List ColorTriple) : Statement (.encodeTransaction colors) := by
  simp [Statement, encode, formatOfInstr]
theorem new (transport : Handle) : Statement (.new transport) := of_encode rfl rfl (by simp [formatOfInstr])
theorem setColors (colors : List ColorTriple) : Statement (.setColors colors) :=
  of_encode rfl rfl (by simp [formatOfInstr])
theorem writeStep : Statement .writeStep := by simp [Statement, encode, formatOfInstr]
theorem setColor (r g b : Byte) : Statement (.setColor r g b) := of_encode rfl rfl (by simp [formatOfInstr])
theorem release : Statement .release := of_encode rfl rfl (by decide)
theorem transmit (w : Word) : Statement (.transmit w) := of_encode rfl rfl (by simp [formatOfInstr])

end Format
end Sys2Proof.Laws
end

