-- ==== Sys2Proof/Laws/Run.lean ====
section
/-!
SUPPORT. Runs of several steps, one step at a time.
-/

namespace Sys2Proof.Machine

variable {E : Type}

@[simp] theorem runSteps_zero (s : Over.State E) : runSteps 0 s = .next s := rfl

theorem runSteps_succ (m : Nat) (s : Over.State E) :
    runSteps (m + 1) s =
      match stepOf s with
      | .next s' => runSteps m s'
      | .fault r => .fault r
      | .refused r => .refused r := rfl

/-- `runSteps` at the host's type of error values is the host's run of the machine. -/
theorem core_run_eq_runSteps (m : Nat) (s : State) : Host.Core.run core m s = runSteps m s := by
  induction m generalizing s with
  | zero => rfl
  | succ m ih =>
    have hc : core.step s = step s := rfl
    simp only [Host.Core.run, runSteps]
    rw [← step_eq_stepOf]
    cases hs : step s with
    | next t => rw [hs] at hc; rw [hc]; exact ih t
    | fault r => rw [hs] at hc; rw [hc]; rfl
    | refused r => rw [hs] at hc; rw [hc]; rfl

/-- A run cut in two. -/
theorem runSteps_add (m n : Nat) {s t : Over.State E} (h : runSteps m s = .next t) :
    runSteps (m + n) s = runSteps n t := by
  induction m generalizing s with
  | zero => cases h; rw [Nat.zero_add]
  | succ m ih =>
    rw [Nat.add_right_comm, runSteps_succ]
    rw [runSteps_succ] at h
    split at h
    · exact ih h
    · cases h
    · cases h

end Sys2Proof.Machine
end

