-- ==== Sys2Proof/Tests/Slice0.lean ====
section
/-!
SUPPORT. The model's own tests. Expected values come from spec/95_test_vectors.md (ids in the comments) or are written out
from the encodings of spec/30_encoding.md. The last part shows, for each statement with hypotheses, values that meet them.
-/

namespace Sys2Proof.Tests
open Sys2Proof Sys2Proof.Machine

/-- The next state, where there is one. -/
def after (o : Host.Outcome State Fault Refusal) : Option State :=
  match o with
  | .next s => some s
  | .fault _ => none
  | .refused _ => none

/-- `{Holding, Run}` at word `k`, with the transport's answers. -/
def running (colors : List ColorTriple) (k : Nat) (answers : List (TxInput ErrVal)) : State :=
  { State.reset with seq := .run colors k, answers := answers }

/-- `{Holding, Idle}` with the host's offers and the transport's answers. -/
def offered (offers : List Offer) (answers : List (TxInput ErrVal)) : State :=
  { State.reset with offers := offers, answers := answers }

/-- The same state with these inputs waiting at port ENC. -/
def encShown (inputs : List (BitVec 24)) (s : State) : State := { s with encInputs := inputs }

/-- `{Released, Idle}` with the host's offers. -/
def releasedWith (offers : List Offer) : State := { State.reset with mode := .released, offers := offers }

/-- The colours of V4: device 0 and device 1. -/
def c0 : ColorTriple := ⟨0, 255, 200⟩
def c1 : ColorTriple := ⟨255, 50, 20⟩
def err7 : ErrVal := ⟨7⟩

/-! ### Well-formedness: an ill-formed term for each check -/

theorem test_wf_frame_v1 : (Instr.frame 0 0 3 200 255 0).wellFormed = true := by decide
theorem test_illformed_frame_blue : (Instr.frame 3 0 3 200 255 0).wellFormed = false := by decide
theorem test_illformed_frame_green : (Instr.frame 0 3 3 200 255 0).wellFormed = false := by decide
theorem test_illformed_frame_red : (Instr.frame 0 0 0 200 255 0).wellFormed = false := by decide
theorem test_illformed_transmit_top_bits : (Instr.transmit ⟨0x03, 200, 255, 0⟩).wellFormed = false := by decide
theorem test_illformed_transmit_fields : (Instr.transmit ⟨0xC0, 0, 0, 0⟩).wellFormed = false := by decide

/-! ### Decoding: words written out from the encodings -/

/-- Rule R51, first word of a transaction. -/
theorem test_decode_start : decode (.w32 .first ⟨0, 0, 0, 0⟩) = .ok .start := by decide
/-- Rule R51, any later word. -/
theorem test_decode_end : decode (.w32 .later ⟨0, 0, 0, 0⟩) = .ok .endMarker := by decide
/-- V1: C3 = 11 00 00 11. -/
theorem test_decode_frame_v1 :
    decode (.w32 .later ⟨0b11000011, 200, 255, 0⟩) = .ok (.frame 0b00 0b00 0b11 200 255 0) := by decide
/-- F16: C6 = 11 00 01 10, three different fields. -/
theorem test_decode_frame_f16 :
    decode (.w32 .later ⟨0b11000110, 192, 128, 64⟩) = .ok (.frame 0b00 0b01 0b10 192 128 64) := by decide
/-- Rule R59: the prefix does not match the colour bytes. -/
theorem test_decode_rejects_prefix : decode (.w32 .later ⟨0xC0, 0, 0, 0⟩) = .error .notEmitted := by decide
theorem test_decode_rejects_first_word : decode (.w32 .first ⟨0xC3, 0xC8, 0xFF, 0⟩) = .error .startExpected := by decide
/-- Rule R58: r in 23:16, g in 15:8, b in 7:0. -/
theorem test_decode_enc : decode (.enc 0x123456) = .ok (.encodeDeviceFrame 0x12 0x34 0x56) := by decide
/-- P1's CMD record. -/
theorem test_decode_set_colors : decode (.offer (.cmd 0 1 [0x00FFC8])) = .ok (.setColors [c0]) := by decide
/-- P3's CMD record, chain order kept. -/
theorem test_decode_set_colors_two :
    decode (.offer (.cmd 0 2 [0x00FFC8, 0xFF3214])) = .ok (.setColors [c0, c1]) := by decide
/-- P2's second CMD record. -/
theorem test_decode_release : decode (.offer (.cmd 1 0 [])) = .ok .release := by decide
theorem test_decode_new : decode (.offer (.rst ⟨5⟩)) = .ok (.new ⟨5⟩) := by decide
theorem test_decode_transmit : decode (.tx ⟨0xFC, 20, 50, 255⟩) = .ok (.transmit ⟨0xFC, 0x14, 0x32, 0xFF⟩) := by decide
theorem test_decode_rejects_length : decode (.offer (.cmd 0 2 [0x00FFC8])) = .error .lengthMismatch := by decide
theorem test_decode_rejects_operands : decode (.offer (.cmd 1 1 [0x00FFC8])) = .error .operandsOnRelease := by decide
theorem test_decode_rejects_transmit : decode (.tx ⟨0x01, 0, 0, 0⟩) = .error .notEmitted := by decide

/-- V2, read back from the wire. -/
theorem test_stream_v2 : decodeStream [0, 0, 0, 0, 0xC3, 0xC8, 0xFF, 0, 0, 0, 0, 0] = .ok [c0] := by decide
theorem test_stream_partial : decodeStream [0, 0, 0, 0, 0xC3, 0xC8] = .error .partialWord := by decide
theorem test_stream_without_end : decodeStream [0, 0, 0, 0, 0xC3, 0xC8, 0xFF, 0] = .error .endMissing := by decide
theorem test_stream_too_long : decodeStream [0, 0, 0, 0, 0, 0, 0, 0, 0] = .error .bytesAfterEnd := by decide
theorem test_stream_without_start : decodeStream [0xC3, 0xC8, 0xFF, 0] = .error .startExpected := by decide

/-! ### Encoding -/

theorem test_encode_frame_f28 : encode (.frame 3 3 0 20 50 255) = some (.w32 .later ⟨0xFC, 0x14, 0x32, 0xFF⟩) := by decide
theorem test_encode_set_color : encode (.setColor 0 255 200) = some (.offer (.cmd 0 1 [0x00FFC8])) := by decide
theorem test_encode_release : encode .release = some (.offer (.cmd 1 0 [])) := by decide

/-! ### The table's words, placed and stepped from reset -/

theorem test_table_start_steps :
    (after (step (State.reset.withFetchWord 32 0))).map (fun t => (t.seq, t.bus)) =
      some (.run [] 1, [0, 0, 0, 0]) := by decide
theorem test_table_frame_steps :
    (after (step (State.reset.withFetchWord 32 0xC3C8FF00))).map (fun t => (t.seq, t.bus)) =
      some (.run [c0] 2, [0xC3, 0xC8, 0xFF, 0]) := by decide
theorem test_table_enc_steps :
    (after (step (State.reset.withFetchWord 24 0x00FFC8))).map (·.encOut) = some [[0xC3, 0xC8, 0xFF, 0]] := by decide
theorem test_table_set_colors_steps :
    (after (step (State.reset.withFetchWord 8 0))).map (·.seq) = some (.run [] 0) := by decide
theorem test_table_release_steps :
    (after (step (State.reset.withFetchWord 8 1))).map (·.mode) = some .released := by decide

/-! ### The FrameEncoder -/

/-- F20. -/
theorem test_encode_device_frame_f20 :
    (after (exec (.encodeDeviceFrame 0xAB 0xCD 0xEF) State.reset)).map (·.encOut) =
      some [[0xC1, 0xEF, 0xCD, 0xAB]] := by decide
/-- F1, while Released and in the middle of a transaction (rule R58). -/
theorem test_encode_device_frame_anywhere :
    (after (exec (.encodeDeviceFrame 0 0 0) { running [c0] 1 [] with mode := .released })).map (·.encOut) =
      some [[0xFF, 0, 0, 0]] := by decide
/-- TX3. -/
theorem test_encode_transaction_tx3 :
    (after (exec (.encodeTransaction [c0, c1]) State.reset)).map (·.encOut) =
      some [[0, 0, 0, 0, 0xC3, 0xC8, 0xFF, 0, 0xFC, 0x14, 0x32, 0xFF, 0, 0, 0, 0]] := by decide
/-- TX1. -/
theorem test_encode_transaction_tx1 :
    (after (exec (.encodeTransaction []) State.reset)).map (·.encOut) = some [[0, 0, 0, 0, 0, 0, 0, 0]] := by decide

/-! ### The wire words and the transport call -/

/-- CC5 and CC6: START fails with nothing, or everything, on the bus. -/
theorem test_start_fails_j0 :
    (after (exec .start (running [c0, c1] 0 [.fail err7 0]))).map (fun t => (t.seq, t.bus, t.responses)) =
      some (.idle, [], [.err err7]) := by decide
theorem test_start_fails_j4 :
    (after (exec .start (running [c0, c1] 0 [.fail err7 4]))).map (fun t => (t.seq, t.bus, t.responses)) =
      some (.idle, [0, 0, 0, 0], [.err err7]) := by decide
/-- CC8's third write: one byte of device 1's frame. -/
theorem test_frame_fails_j1 :
    (after (exec (.frame 3 3 0 20 50 255) (running [c0, c1] 2 [.fail err7 1]))).map (fun t => (t.bus, t.writes)) =
      some ([0xFC], [(⟨0xFC, 0x14, 0x32, 0xFF⟩, .fail err7)]) := by decide
/-- Device 0's frame is not due at index 2. -/
theorem test_frame_not_due :
    exec (.frame 0 0 3 200 255 0) (running [c0, c1] 2 [.ok]) = .refused .wordNotDue := by rfl
/-- P5: for N = 0 the word at index 1 is the end marker. -/
theorem test_end_of_empty_chain :
    (after (exec .endMarker (running [] 1 [.ok]))).map (fun t => (t.seq, t.bus, t.responses)) =
      some (.idle, [0, 0, 0, 0], [.ok]) := by decide
/-- The markers are told apart by position: END is not due at index 0. -/
theorem test_end_not_due_at_start : exec .endMarker (running [] 0 [.ok]) = .refused .wordNotDue := by rfl
theorem test_transmit_due :
    (after (exec (.transmit ⟨0xC3, 0xC8, 0xFF, 0⟩) (running [c0] 1 [.ok]))).map (fun t => (t.seq, t.bus)) =
      some (.run [c0] 2, [0xC3, 0xC8, 0xFF, 0]) := by decide

/-! ### The controller -/

/-- CC16, in a released controller with old logs. -/
theorem test_new_starts_afresh :
    (after (exec (.new ⟨9⟩) { releasedWith [] with bus := [1], responses := [.handle ⟨0⟩] })).map
      (fun t => (t.mode, t.xport, t.bus, t.responses)) = some (.holding, ⟨9⟩, [], []) := by decide
theorem test_new_mid_transaction : exec (.new ⟨9⟩) (running [c0] 1 [.ok]) = .refused .resetInMidTransaction := by rfl
/-- P1 step 2. -/
theorem test_set_colors_accepted :
    (after (exec (.setColors [c0]) State.reset)).map (fun t => (t.seq, t.bus)) = some (.run [c0] 0, []) := by decide
/-- CC15. -/
theorem test_set_color_after_release : exec (.setColor 1 2 3) (releasedWith []) = .refused .consumed := by rfl
/-- Rule R84. -/
theorem test_set_color_accepted :
    (after (exec (.setColor 255 50 20) State.reset)).map (·.seq) = some (.run [c1] 0) := by decide
/-- CC9: the end marker fails after three bytes. -/
theorem test_write_step_end_fails :
    (after (exec .writeStep (running [c0, c1] 3 [.fail err7 3]))).map (fun t => (t.seq, t.bus, t.responses)) =
      some (.idle, [0, 0, 0], [.err err7]) := by decide
/-- CC13: no answer. -/
theorem test_write_step_stuck : exec .writeStep (running [⟨0, 0, 0⟩] 1 []) = .fault .transportSilent := by rfl
/-- CC14. -/
theorem test_release :
    (after (exec .release State.reset)).map (fun t => (t.mode, t.bus, t.responses)) =
      some (.released, [], [.handle State.reset.xport]) := by decide
/-- T8: the offer waits. -/
theorem test_release_waits :
    (after (exec .release (running [c0] 1 [.ok]))).map (fun t => (t.mode, t.seq, t.offers)) =
      some (.holding, .run [c0] 1, [.cmd 1 0 []]) := by decide

/-- Rule R7: the machine over a type of error values on which equality is not decidable (rule R38 with j = 1). -/
theorem test_step_over_functions (f : Nat → Nat) :
    stepOf { (State.fresh ⟨0⟩ : Over.State (Nat → Nat)) with seq := .run [] 0, answers := [.fail f 1] } =
      .next { (State.fresh ⟨0⟩ : Over.State (Nat → Nat)) with
        writes := [(markerWord, .fail f)], bus := [0], responses := [.err f], draws := 1 } := by rfl
/-- Rule R131: nothing offered, nothing to do. -/
theorem test_step_final : step State.reset = .fault .runEnded := by rfl
/-- U10: the ENC port works while the transport is silent (rule R58). -/
theorem test_step_enc_while_stuck :
    (after (step { running [c0] 1 [] with encInputs := [0xFFFFFF], offers := [cmdRelease] })).map
      (fun t => (t.seq, t.offers, t.encOut)) =
      some (.run [c0] 1, [cmdRelease], [[0xC0, 0xFF, 0xFF, 0xFF]]) := by decide
/-- Rules R87 (a), R130: a waiting command does not wake a block whose transport is silent. -/
theorem test_step_stuck_with_offer :
    step { running [c0] 1 [] with offers := [cmdRelease] } = .fault .transportSilent := by rfl
/-- CC13: `00 00 00 00`, and of FF 00 00 00 the two bytes the mask picks. -/
theorem test_bus_while_waiting :
    Over.State.busWith 0b0011 { running [⟨0, 0, 0⟩] 1 [] with bus := [0, 0, 0, 0] } = [0, 0, 0, 0, 0xFF, 0] := by decide
/-- No word waits while an answer is ready. -/
theorem test_bus_not_waiting :
    Over.State.busWith 0b1111 { running [c0] 1 [.ok] with bus := [0, 0, 0, 0] } = [0, 0, 0, 0] := by decide

/-! ### Hypotheses of the statements are met -/

theorem test_witness_DecodeOfEncode :
    (Instr.frame 0 0 3 200 255 0).wellFormed = true ∧
      encode (.frame 0 0 3 200 255 0) = some (.w32 .later ⟨0xC3, 200, 255, 0⟩) := by decide
theorem test_witness_EncodeOfDecode : decode (.enc 0x00FFC8) = .ok (.encodeDeviceFrame 0 255 200) := by decide
theorem test_witness_StreamDecodeSound : decodeStream [0, 0, 0, 0, 0, 0, 0, 0] = .ok [] := by decide
theorem test_witness_PrefixFormula_wide : 8 ≤ 32 := by decide
theorem test_witness_WordsOfATransaction :
    [c0, c1][1]? = some c1 ∧ wordAt [c0, c1] 3 = some markerWord ∧ wordAt [c0, c1] 4 = none := by decide
theorem test_witness_EncoderProperties : [c0, c1][0]? = some c0 := by decide
theorem test_witness_EmittableWords : deviceFrame c0 = deviceFrame ⟨0, 255, 200⟩ := by decide

/-- {Holding, Idle}: SetColorsAccepted, SetColorIsSetColorsOfOne, ReleaseHandsBack, the first clauses of NewBeginsARun and
NoWriteWithoutATransaction. -/
theorem test_witness_holding_idle : State.reset.mode = .holding ∧ State.reset.seq = .idle := by decide
/-- {Holding, Run}: CommandsWaitWhileRunning and the second clause of NewBeginsARun. -/
theorem test_witness_running : (running [c0] 1 []).mode = .holding ∧ (running [c0] 1 []).seq = .run [c0] 1 := by decide
/-- CommandsRefusedAfterRelease, with both kinds of offer, and the second clause of NoWriteWithoutATransaction. -/
theorem test_witness_released :
    (releasedWith [cmdRelease]).mode = .released ∧ (releasedWith [cmdRelease]).seq = .idle ∧
      (releasedWith [cmdRelease]).encInputs = [] ∧ (releasedWith [cmdRelease]).offers = [cmdRelease] ∧
      (releasedWith [cmdSetColors []]).offers = [cmdSetColors []] := by
  decide

/-- WriteStepOutcomes, each clause at a boundary: the last index before the end marker, the end marker, a failure at 0. -/
theorem test_witness_WriteStep_ok :
    (running [c0] 1 [.ok]).mode = .holding ∧ (running [c0] 1 [.ok]).seq = .run [c0] 1 ∧
      wordAt [c0] 1 = some (deviceFrame c0) ∧ (running [c0] 1 [.ok]).answers = [.ok] ∧ 1 ≤ [c0].length := by decide
theorem test_witness_WriteStep_last :
    (running [c0] 2 [.ok]).seq = .run [c0] 2 ∧ wordAt [c0] 2 = some markerWord ∧
      (running [c0] 2 [.ok]).answers = [.ok] ∧ 2 = [c0].length + 1 := by decide
theorem test_witness_WriteStep_fail :
    (running [] 0 [.fail err7 4]).mode = .holding ∧ (running [] 0 [.fail err7 4]).seq = .run [] 0 ∧
      wordAt [] 0 = some markerWord ∧ (running [] 0 [.fail err7 4]).answers = [.fail err7 4] := by decide
/-- StartIsEmittedAtIndexZero, both clauses. -/
theorem test_witness_Start :
    (running [] 0 [.ok]).mode = .holding ∧ (running [] 0 [.ok]).seq = .run [] 0 ∧
      (running [] 0 [.ok]).answers = [.ok] ∧ (running [] 0 [.fail err7 0]).answers = [.fail err7 0] := by decide
/-- FrameIsEmittedForItsDevice, the last device of a chain, both clauses. -/
theorem test_witness_Frame :
    (running [c0, c1] 2 [.ok]).mode = .holding ∧ (running [c0, c1] 2 [.ok]).seq = .run [c0, c1] (1 + 1) ∧
      [c0, c1][1]? = some ⟨255, 50, 20⟩ ∧ (running [c0, c1] 2 [.ok]).answers = [.ok] ∧
      (running [c0, c1] 2 [.fail err7 3]).answers = [.fail err7 3] := by decide
/-- EndIsEmittedAtTheLastIndex, the empty chain, both clauses. -/
theorem test_witness_End :
    (running [] 1 [.ok]).mode = .holding ∧ (running [] 1 [.ok]).seq = .run [] (([] : List ColorTriple).length + 1) ∧
      (running [] 1 [.ok]).answers = [.ok] ∧ (running [] 1 [.fail err7 0]).answers = [.fail err7 0] := by decide
/-- TransmitCarriesTheWordDue with each kind of answer is met by the three WriteStep witnesses. WordsNotDueAreRefused, each
clause: -/
theorem test_witness_WordsNotDue :
    wordAt [c0] 1 = some (deviceFrame c0) ∧ (1 : Nat) ≠ 0 ∧ 1 ≠ [c0].length + 1 ∧
      deviceFrame c0 ≠ frameWord 3 3 0 20 50 255 ∧ markerWord ≠ deviceFrame c0 := by decide
/-- WriteWaitsForTheTransport, each clause. -/
theorem test_witness_WriteWaits :
    (running [c0] 0 []).answers = [] ∧ wordAt [c0] 0 = some markerWord ∧
      wordAt [c0] 1 = some (frameWord 0 0 3 200 255 0) ∧ wordAt [c0] 2 = some markerWord := by decide

/-- StepRunsTheDecodedOperation, each clause: ENC behind a waiting offer, a write with and without an answer and at the last
index, an offer that decodes, one that does not, and none. -/
theorem test_witness_Step :
    decode (.enc 0) = .ok (.encodeDeviceFrame 0 0 0) ∧ (encShown [0] (running [c0] 0 [])).encInputs = [0] ∧
      (running [c0] 2 [.ok]).encInputs = [] ∧ (running [c0] 2 [.ok]).seq = .run [c0] 2 ∧
      (running [c0] 2 []).mode = .holding ∧ 2 ≤ [c0].length + 1 ∧ (running [c0] 2 []).answers = [] ∧
      decode (.offer cmdRelease) = .ok .release ∧ (offered [cmdRelease] []).offers = [cmdRelease] ∧
      (offered [cmdRelease] []).encInputs = [] ∧ (offered [cmdRelease] []).seq = .idle ∧
      decode (.offer (.cmd 0 1 [])) = .error .lengthMismatch ∧ State.reset.offers = [] := by decide
/-- EncPortIsServedInEveryState: two inputs, none, one and both served. -/
theorem test_witness_EncPort :
    0 ≤ (encShown [0, 1] State.reset).encInputs.length ∧ 2 ≤ (encShown [0, 1] State.reset).encInputs.length := by
  decide
/-- OnlyTheTablesTransitions, OnlyWritesReachTheTransport and OneResponsePerCommand: an operation that goes on; the last
also with a failure and with a success, whose statuses are 1 and 0. -/
theorem test_witness_exec_goes_on :
    (after (exec .release State.reset)).isSome = true ∧
      (after (exec .writeStep (running [] 1 [.fail err7 2]))).map (·.responses) = some [.err err7] ∧
      (after (exec .writeStep (running [] 1 [.ok]))).map (·.responses) = some [.ok] ∧
      (Response.err err7).status = some 1 ∧ (Response.ok : Response ErrVal).status = some 0 := by decide
/-- StepKeepsTheInvariant: reset with an offer meets it, and steps. -/
theorem test_witness_invariant : (offered [cmdSetColors [c0]] []).Inv := by
  refine ⟨?_, ?_, ?_⟩ <;> simp [Over.State.SeqInv, Over.State.WordsInv, Over.State.ProgressInv, offered, State.reset, State.fresh]
theorem test_witness_invariant_steps : (after (step (offered [cmdSetColors [c0]] []))).isSome = true := by decide
/-- StepKeepsTheInvariant in the middle of a transaction: word 0 accepted, word 1 due, and the step accepts or fails it. -/
def midway (answers : List (TxInput ErrVal)) : State :=
  { running [c0] 1 answers with writes := [(markerWord, .ok)], bus := [0, 0, 0, 0] }
theorem test_witness_invariant_midway (answers : List (TxInput ErrVal)) : (midway answers).Inv := by
  refine ⟨?_, ?_, ?_⟩
  · rintro colors k ⟨⟩
    exact ⟨rfl, by decide⟩
  · intro entry he
    simp only [midway, List.mem_singleton] at he
    exact .inl (by rw [he])
  · rintro colors k ⟨⟩
    exact ⟨[], [], rfl, rfl⟩
theorem test_witness_invariant_midway_steps :
    (after (step (midway [.ok]))).map (·.seq) = some (.run [c0] 2) ∧
      (after (step (midway [.fail err7 2]))).map (·.seq) = some .idle := by decide
/-- OutputsDoNotDependOnTheLogs, each clause: two states with different logs in the middle of a transaction, which both step
on and add an entry to `writes`. -/
theorem test_witness_SameOutputs :
    SameBlock (running [c0] 1 [.ok]) (midway [.ok]) ∧
      (after (step (running [c0] 1 [.ok]))).map (·.writes) = some ([] ++ [(deviceFrame c0, .ok)]) ∧
      (after (step (midway [.ok]))).map (·.writes) = some ((midway [.ok]).writes ++ [(deviceFrame c0, .ok)]) :=
  ⟨⟨rfl, rfl, rfl, rfl, rfl, rfl⟩, by decide, by decide⟩
/-- LogsAreOutputs: two states with different logs. -/
theorem test_witness_SameBlock : SameBlock State.reset { State.reset with bus := [1] } := ⟨rfl, rfl, rfl, rfl, rfl, rfl⟩
/-- ReleasedIsPermanent: a released controller whose ENC port still steps. -/
theorem test_witness_Released_runs :
    (encShown [0] (releasedWith [cmdRelease])).mode = .released ∧
      (after (runSteps 1 (encShown [0] (releasedWith [cmdRelease])))).isSome = true := by decide
theorem test_witness_Released_no_reset :
    ∀ h : Handle, Offer.rst h ∉ (encShown [0] (releasedWith [cmdRelease])).offers := by
  intro h hm
  simp [encShown, releasedWith, cmdRelease] at hm
/-- SilentTransportHoldsTheBlock: a stuck block whose ENC port still steps. -/
theorem test_witness_Silent_runs :
    (encShown [0] (running [c0] 1 [])).seq = .run [c0] 1 ∧ (encShown [0] (running [c0] 1 [])).answers = [] ∧
      (encShown [0] (running [c0] 1 [])).mode = .holding ∧ 1 ≤ [c0].length + 1 ∧
      (encShown [0] (running [c0] 1 [])).encInputs.length < 2 ∧
      (after (runSteps 1 (encShown [0] (running [c0] 1 [])))).isSome = true := by decide
/-- BytesOfAWaitingWordAreFree: a word that waits, all of its bytes, and a state where none waits. -/
theorem test_witness_BytesOfAWaitingWord :
    (running [c0] 1 []).seq = .run [c0] 1 ∧ (running [c0] 1 []).answers = [] ∧
      wordAt [c0] 1 = some (deviceFrame c0) ∧ (deviceFrame c0).bytes.Sublist (deviceFrame c0).bytes ∧
      State.reset.seq = .idle := by decide
/-- WholeSetColorsOutcome and BusAfterFailureIsAnyPrefix: an accepted command with each of the three kinds of answers, the
failure and the silence at the last write. -/
theorem test_witness_WholeSetColors :
    (offered [cmdSetColors [c0]] []).offers = [cmdSetColors [c0]] ∧
      (offered [] [.ok, .ok, .ok]).answers = List.replicate ([c0].length + 2) .ok ++ [] ∧
      (offered [] [.ok, .ok, .fail err7 4]).answers = List.replicate 2 .ok ++ .fail err7 4 :: [] ∧
      (offered [] [.ok, .ok]).answers = List.replicate 2 .ok ∧ 2 < [c0].length + 2 ∧
      12 ≤ 4 * ([c0].length + 2) := by decide
/-- RepeatedCommandSameBytes. -/
theorem test_witness_Repeated :
    (offered [cmdSetColors [], cmdSetColors []] [.ok, .ok, .ok, .ok]).offers = cmdSetColors [] :: cmdSetColors [] :: [] ∧
      (offered [] [.ok, .ok, .ok, .ok]).answers =
        List.replicate (2 * (([] : List ColorTriple).length + 2)) .ok ++ [] := by decide

end Sys2Proof.Tests
end

/-!
SUPPORT. Renaming error values and handles commutes with everything the machine is made of, from the named operations up to
one step (rules R7, R12, R31).
-/

namespace Sys2Proof.Machine

variable {E F : Type} (f : E → F) (g : Handle → Handle)

/-- An operation with its handle renamed; NEW alone carries one. -/
def renameInstr (g : Handle → Handle) : Instr → Instr
  | .new h => .new (g h)
  | i => i

/-- The operation that `fetch` finds, and the state it finds, with their error values and handles renamed. -/
def renameFetched (f : E → F) (g : Handle → Handle) :
    Host.Outcome (Instr × Over.State E) Fault Refusal → Host.Outcome (Instr × Over.State F) Fault Refusal
  | .next (i, s) => .next (renameInstr g i, s.rename f g)
  | .fault r => .fault r
  | .refused r => .refused r

/-! ### The fields of a renamed state -/

section Fields
variable (s : Over.State E)

@[simp] theorem rename_mode : (s.rename f g).mode = s.mode := rfl
@[simp] theorem rename_xport : (s.rename f g).xport = g s.xport := rfl
@[simp] theorem rename_seq : (s.rename f g).seq = s.seq := rfl
@[simp] theorem rename_writes :
    (s.rename f g).writes = s.writes.map (fun entry => (entry.1, renameAnswer f entry.2)) := rfl
@[simp] theorem rename_bus : (s.rename f g).bus = s.bus := rfl
@[simp] theorem rename_responses : (s.rename f g).responses = s.responses.map (renameResponse f g) := rfl
@[simp] theorem rename_encOut : (s.rename f g).encOut = s.encOut := rfl
@[simp] theorem rename_encInputs : (s.rename f g).encInputs = s.encInputs := rfl
@[simp] theorem rename_offers : (s.rename f g).offers = s.offers.map (renameOffer g) := rfl
@[simp] theorem rename_answers : (s.rename f g).answers = s.answers.map (renameInput f) := rfl
@[simp] theorem rename_draws : (s.rename f g).draws = s.draws := rfl

end Fields

/-! ### The named operations -/

@[simp] theorem renameInput_answer (a : TxInput E) : (renameInput f a).answer = renameAnswer f a.answer := by
  cases a <;> rfl

@[simp] theorem renameInput_reached (a : TxInput E) (w : Word) : (renameInput f a).reached w = a.reached w := by
  cases a <;> rfl

theorem memWrite_rename (w : Word) (a : TxInput E) (s : Over.State E) :
    memWrite w (renameInput f a) (s.rename f g) = (memWrite w a s).rename f g := by
  simp [memWrite, Over.State.rename]

theorem respond_rename (r : Response E) (s : Over.State E) :
    respond (renameResponse f g r) (s.rename f g) = (respond r s).rename f g := by
  simp [respond, Over.State.rename]

theorem setSeq_rename (q : Seq) (s : Over.State E) : setSeq q (s.rename f g) = (setSeq q s).rename f g := rfl

theorem handBack_rename (s : Over.State E) : handBack (s.rename f g) = (handBack s).rename f g :=
  respond_rename f g (.handle s.xport) { s with mode := .released }

theorem putResult_rename (bytes : List Byte) (s : Over.State E) :
    putResult bytes (s.rename f g) = (putResult bytes s).rename f g := rfl

theorem construct_rename (h : Handle) (s : Over.State E) :
    construct (g h) (s.rename f g) = (construct h s).rename f g := rfl

/-- The sequencer looks at whether the transport failed, never at the error value it failed with. -/
theorem afterAnswer_rename (colors : List ColorTriple) (k : Nat) (a : TxInput E) (s : Over.State E) :
    afterAnswer colors k (renameInput f a) (s.rename f g) = (afterAnswer colors k a s).rename f g := by
  cases a with
  | fail e j => exact respond_rename f g (.err e) (setSeq .idle s)
  | ok =>
    by_cases hk : k = colors.length + 1
    · simp only [afterAnswer, renameInput, if_pos hk]
      exact respond_rename f g .ok (setSeq .idle s)
    · simp [afterAnswer, renameInput, hk, setSeq_rename]

theorem writeWord_rename (w : Word) (colors : List ColorTriple) (k : Nat) (s : Over.State E) :
    writeWord w colors k (s.rename f g) = renameOutcome f g (writeWord w colors k s) := by
  cases ha : s.answers with
  | nil => simp [writeWord, ha, renameOutcome]
  | cons a rest =>
    simp only [writeWord, rename_answers, ha, List.map_cons, renameOutcome]
    rw [← afterAnswer_rename, ← memWrite_rename]
    rfl

/-- Whether a write is enabled depends on `mode`, `seq` and the word due, which a renaming leaves alone. -/
theorem emit_rename (due : List ColorTriple → Nat → Word → Bool) (s : Over.State E) :
    emit due (s.rename f g) = renameOutcome f g (emit due s) := by
  cases hm : s.mode with
  | released => simp [emit, hm, renameOutcome]
  | holding =>
    cases hq : s.seq with
    | idle => simp [emit, hm, hq, renameOutcome]
    | run colors k =>
      cases hw : wordAt colors k with
      | none => simp [emit, hm, hq, hw, renameOutcome]
      | some w =>
        cases hd : due colors k w with
        | false => simp [emit, hm, hq, hw, hd, renameOutcome]
        | true => simp [emit, hm, hq, hw, hd, writeWord_rename]

/-- A command whose record carries no handle, and whose effect commutes with the renaming. -/
theorem accept_rename {o : Offer} {effectE : Over.State E → Over.State E} {effectF : Over.State F → Over.State F}
    {s : Over.State E} (ho : renameOffer g o = o) (he : effectF (s.rename f g) = (effectE s).rename f g) :
    accept o effectF (s.rename f g) = renameOutcome f g (accept o effectE s) := by
  cases hm : s.mode with
  | released => simp [accept, hm, renameOutcome]
  | holding =>
    cases hq : s.seq with
    | idle => simp [accept, hm, hq, renameOutcome, he]
    | run colors k => simp [accept, hm, hq, renameOutcome, Over.State.rename, ho]

theorem newOf_rename (h : Handle) (s : Over.State E) :
    newOf (g h) (s.rename f g) = renameOutcome f g (newOf h s) := by
  cases hq : s.seq with
  | idle => simp [newOf, hq, renameOutcome, construct_rename]
  | run colors k => simp [newOf, hq, renameOutcome]

/-! ### An operation, the choice of the next operation, and a step -/

theorem execOf_rename (i : Instr) (s : Over.State E) :
    execOf (renameInstr g i) (s.rename f g) = renameOutcome f g (execOf i s) := by
  cases i with
  | start => exact emit_rename f g _ s
  | frame nb ng nr b g' r => exact emit_rename f g _ s
  | endMarker => exact emit_rename f g _ s
  | encodeDeviceFrame r g' b => exact congrArg _ (putResult_rename f g _ s)
  | encodeTransaction colors => exact congrArg _ (putResult_rename f g _ s)
  | new h => exact newOf_rename f g h s
  | setColors colors => exact accept_rename f g rfl (setSeq_rename f g _ s)
  | writeStep => exact emit_rename f g _ s
  | setColor r g' b => exact accept_rename f g rfl (setSeq_rename f g _ s)
  | release => exact accept_rename f g rfl (handBack_rename f g s)
  | transmit w => exact emit_rename f g _ s

/-- The shape of an offer decides whether it is an operation, not the handle of an RST. -/
theorem decodeOffer_rename (o : Offer) :
    decodeOffer (renameOffer g o) = (decodeOffer o).map (renameInstr g) := by
  cases o with
  | rst h => rfl
  | cmd op n colors =>
    simp only [renameOffer, decodeOffer]
    split_ifs <;> rfl

theorem fetch_rename (s : Over.State E) : fetch (s.rename f g) = renameFetched f g (fetch s) := by
  cases hx : s.encInputs with
  | cons x later =>
    rw [fetch_enc hx, fetch_enc (s := s.rename f g) hx]
    rfl
  | nil =>
    cases hq : s.seq with
    | run colors k =>
      rw [fetch_write hx hq, fetch_write (s := s.rename f g) hx hq]
      rfl
    | idle =>
      cases ho : s.offers with
      | nil => simp [fetch, hx, hq, ho, renameFetched]
      | cons o rest =>
        have hd := decodeOffer_rename g o
        cases hi : decodeOffer o with
        | error why => simp [fetch, hx, hq, ho, hd, hi, Except.map, renameFetched]
        | ok i => simp [fetch, hx, hq, ho, hd, hi, Except.map, renameFetched, Over.State.rename]

theorem stepOf_rename (s : Over.State E) : stepOf (s.rename f g) = renameOutcome f g (stepOf s) := by
  cases hf : fetch s with
  | next found => simp [stepOf, fetch_rename, hf, renameFetched, execOf_rename]
  | fault r => simp [stepOf, fetch_rename, hf, renameFetched, renameOutcome]
  | refused r => simp [stepOf, fetch_rename, hf, renameFetched, renameOutcome]

/-- Settles O37: each part of a step commutes with the renaming, and the host's machine is the generic one at its type of
error values. -/
theorem tokensAreNeverInspected : Obligations.TokensAreNeverInspected :=
  ⟨fun _ _ => stepOf_rename, step_eq_stepOf, exec_eq_execOf⟩

end Sys2Proof.Machine

/-!
SUPPORT. What one step that goes on can be, and the facts about words, runs and stops that the statements about the state
rest on.
-/

namespace Sys2Proof.Machine

variable {E : Type}

/-! ### The words of a transaction as a list -/

/-- The words of the transaction for a chain, in order (rule R72). -/
def transactionWords (colors : List ColorTriple) : List Word :=
  markerWord :: (colors.map deviceFrame ++ [markerWord])

@[simp] theorem length_transactionWords (colors : List ColorTriple) :
    (transactionWords colors).length = colors.length + 2 := by
  simp [transactionWords]

theorem wordAt_eq_getElem? (colors : List ColorTriple) (k : Nat) :
    wordAt colors k = (transactionWords colors)[k]? := by
  rcases k with _ | i
  · simp [transactionWords]
  · obtain hi | rfl | hi := Nat.lt_trichotomy i colors.length
    · simp [transactionWords, wordAt_frame colors i hi, List.getElem?_append_left, hi]
    · simp [transactionWords]
    · rw [wordAt_beyond colors (i + 1) (by omega), List.getElem?_eq_none (by simp; omega)]

/-- Every index up to N+1 has a word (rule R72). -/
theorem exists_wordAt {colors : List ColorTriple} {k : Nat} (hk : k ≤ colors.length + 1) :
    ∃ w, wordAt colors k = some w := by
  have hlt : k < (transactionWords colors).length := by simp; omega
  exact ⟨(transactionWords colors)[k], by rw [wordAt_eq_getElem?, List.getElem?_eq_getElem hlt]⟩

theorem transaction_eq_flatMap_words (colors : List ColorTriple) :
    transaction colors = (transactionWords colors).flatMap Word.bytes := by
  simp [transaction, transactionWords, List.flatMap_map]

theorem length_flatMap_bytes (ws : List Word) : (ws.flatMap Word.bytes).length = 4 * ws.length := by
  induction ws with
  | nil => rfl
  | cons w ws ih => simp [ih]; omega

@[simp] theorem length_transaction (colors : List ColorTriple) :
    (transaction colors).length = 4 * (colors.length + 2) := by
  rw [transaction_eq_flatMap_words, length_flatMap_bytes, length_transactionWords]

/-- The first `4k` bytes of a list of words are those of its first `k` words. -/
theorem take_flatMap_bytes (ws : List Word) (k : Nat) :
    (ws.flatMap Word.bytes).take (4 * k) = (ws.take k).flatMap Word.bytes := by
  induction ws generalizing k with
  | nil => simp
  | cons w ws ih =>
    cases k with
    | zero => simp
    | succ k => simp [List.take_append, ih, Nat.mul_succ]

/-- One more word of a transaction is its four bytes more. -/
theorem take_transaction_succ {colors : List ColorTriple} {k : Nat} {w : Word} (hw : wordAt colors k = some w) :
    (transaction colors).take (4 * (k + 1)) = (transaction colors).take (4 * k) ++ w.bytes := by
  rw [wordAt_eq_getElem?] at hw
  simp only [transaction_eq_flatMap_words, take_flatMap_bytes, List.take_add_one, hw, List.flatMap_append]
  simp

@[simp] theorem okWrites_zero (colors : List ColorTriple) : (okWrites colors 0 : List (Word × Answer E)) = [] := rfl

theorem okWrites_succ {colors : List ColorTriple} {k : Nat} {w : Word} (hw : wordAt colors k = some w) :
    (okWrites colors (k + 1) : List (Word × Answer E)) = okWrites colors k ++ [(w, .ok)] := by
  simp [okWrites, List.range_succ, hw]

/-! ### The sequencer's reaction to an answer -/

/-- The sequencer answers by a new `seq` and by responses, which depend on the answer and not on the state. -/
theorem afterAnswer_frame (colors : List ColorTriple) (k : Nat) (a : TxInput E) :
    ∃ q added, ∀ s : Over.State E,
      afterAnswer colors k a s = { s with seq := q, responses := s.responses ++ added } := by
  cases a with
  | fail e j => exact ⟨.idle, [.err e], fun _ => rfl⟩
  | ok =>
    by_cases hk : k = colors.length + 1
    · exact ⟨.idle, [.ok], fun _ => by simp [afterAnswer, hk, respond, setSeq]⟩
    · exact ⟨.run colors (k + 1), [], fun _ => by simp [afterAnswer, hk, setSeq]⟩

section afterAnswer
variable (colors : List ColorTriple) (k : Nat) (a : TxInput E) (s : Over.State E)

@[simp] theorem afterAnswer_mode : (afterAnswer colors k a s).mode = s.mode := by
  obtain ⟨q, added, h⟩ := afterAnswer_frame colors k a
  rw [h]

@[simp] theorem afterAnswer_writes : (afterAnswer colors k a s).writes = s.writes := by
  obtain ⟨q, added, h⟩ := afterAnswer_frame colors k a
  rw [h]

@[simp] theorem afterAnswer_bus : (afterAnswer colors k a s).bus = s.bus := by
  obtain ⟨q, added, h⟩ := afterAnswer_frame colors k a
  rw [h]

end afterAnswer

/-! ### What a step can be -/

/-- With nothing at port ENC, no transaction and no offer, the run has ended (rule R131). -/
theorem fetch_ended {s : Over.State E} (he : s.encInputs = []) (hq : s.seq = .idle) (ho : s.offers = []) :
    fetch s = .fault .runEnded := by
  simp [fetch, he, hq, ho]

/-- An offer that is no operation is refused. -/
theorem fetch_undecodable {s : Over.State E} {o : Offer} {rest : List Offer} {why : DecodeError} (he : s.encInputs = [])
    (hq : s.seq = .idle) (ho : s.offers = o :: rest) (hd : decodeOffer o = .error why) :
    fetch s = .refused (.undecodable why) := by
  simp [fetch, he, hq, ho, hd]

/-- The moves of the machine: each source of the next operation, with all that makes it go on and the state it leads to. -/
inductive Move (s : Over.State E) : Over.State E → Prop where
  /-- Port ENC serves an input (rule R58). -/
  | encServed (x : BitVec 24) (later : List (BitVec 24)) :
      s.encInputs = x :: later → Move s (putResult (encResult x) { s with encInputs := later })
  /-- The transport answers the word due (rule R82). -/
  | wordAnswered (colors : List ColorTriple) (k : Nat) (w : Word) (a : TxInput E) (rest : List (TxInput E)) :
      s.encInputs = [] → s.mode = .holding → s.seq = .run colors k → wordAt colors k = some w →
      s.answers = a :: rest → Move s (afterAnswer colors k a (memWrite w a { s with answers := rest }))
  /-- NEW (rules R80, R120). -/
  | runBegun (h : Handle) (rest : List Offer) :
      s.encInputs = [] → s.seq = .idle → s.offers = .rst h :: rest → Move s (construct h { s with offers := rest })
  /-- SET_COLORS is accepted (rule R81). -/
  | commandAccepted (o : Offer) (colors : List ColorTriple) (rest : List Offer) :
      s.encInputs = [] → s.mode = .holding → s.seq = .idle → s.offers = o :: rest →
      decodeOffer o = .ok (.setColors colors) → Move s (beginTransaction colors { s with offers := rest })
  /-- RELEASE is accepted (rule R85). -/
  | handedBack (o : Offer) (rest : List Offer) :
      s.encInputs = [] → s.mode = .holding → s.seq = .idle → s.offers = o :: rest →
      decodeOffer o = .ok .release → Move s (handBack { s with offers := rest })

/-- What an offer can be when it is an operation (rules R50, R56). -/
theorem decodeOffer_ok {o : Offer} {i : Instr} (h : decodeOffer o = .ok i) :
    (∃ transport, o = .rst transport ∧ i = .new transport) ∨ (∃ colors, i = .setColors colors) ∨ i = .release := by
  cases o with
  | rst transport => cases h; exact .inl ⟨transport, rfl, rfl⟩
  | cmd op n colors =>
    simp only [decodeOffer] at h
    split_ifs at h <;> cases h
    · exact .inr (.inl ⟨_, rfl⟩)
    · exact .inr (.inr rfl)

/-- A command that is carried out with `seq` Idle takes effect, and only while Holding. -/
theorem accept_next_of_idle {o : Offer} {effect : Over.State E → Over.State E} {s t : Over.State E}
    (h : accept o effect s = .next t) (hq : s.seq = .idle) : s.mode = .holding ∧ t = effect s := by
  obtain ⟨hm, ⟨colors, k, hrun, -⟩ | ⟨-, rfl⟩⟩ := accept_next h
  · rw [hq] at hrun; cases hrun
  · exact ⟨hm, rfl⟩

/-- Everything a step can do when it goes on. -/
theorem stepOf_move {s t : Over.State E} (h : stepOf s = .next t) : Move s t := by
  obtain ⟨i, s', hf, hx⟩ := stepOf_next h
  obtain ⟨x, later, he, rfl, rfl⟩ | ⟨_, _, he, -, rfl, rfl⟩ | ⟨o, rest, he, hq, ho, hd, rfl⟩ := fetch_next hf
  · cases hx
    exact .encServed x later he
  · obtain ⟨colors, k, w, a, rest, hm, hq, hw, -, ha, rfl⟩ := emit_next hx
    exact .wordAnswered colors k w a rest he hm hq hw ha
  · obtain ⟨transport, rfl, rfl⟩ | ⟨colors, rfl⟩ | rfl := decodeOffer_ok hd
    · obtain ⟨-, rfl⟩ := newOf_next hx
      exact .runBegun transport rest he hq ho
    · obtain ⟨hm, rfl⟩ := accept_next_of_idle hx hq
      exact .commandAccepted o colors rest he hm hq ho hd
    · obtain ⟨hm, rfl⟩ := accept_next_of_idle hx hq
      exact .handedBack o rest he hm hq ho hd

/-- A step leaves the log `writes` as it is, begins it afresh, or adds the word due with its answer. -/
theorem Move.writes {s t : Over.State E} (h : Move s t) :
    t.writes = s.writes ∨ t.writes = [] ∨
      ∃ colors k w a, s.seq = .run colors k ∧ wordAt colors k = some w ∧ t.writes = s.writes ++ [(w, a)] := by
  cases h with
  | encServed => exact .inl rfl
  | wordAnswered colors k w a rest _ _ hq hw _ =>
    exact .inr (.inr ⟨colors, k, w, a.answer, hq, hw, afterAnswer_writes ..⟩)
  | runBegun => exact .inr (.inl rfl)
  | commandAccepted => exact .inl rfl
  | handedBack => exact .inl rfl

/-! ### The invariant -/

/-- With `seq` Idle the invariant speaks of the words handed over only. -/
theorem inv_of_idle {s : Over.State E} (hq : s.seq = .idle) (hw : s.WordsInv) : s.Inv where
  seqInv := fun _ _ hrun => by rw [hq] at hrun; cases hrun
  wordsInv := hw
  progressInv := fun _ _ hrun => by rw [hq] at hrun; cases hrun

/-- While a transaction runs, the invariant speaks of that transaction. -/
theorem inv_of_run {s : Over.State E} {colors : List ColorTriple} {k : Nat} (hq : s.seq = .run colors k)
    (hm : s.mode = .holding) (hk : k ≤ colors.length + 1) (hwords : s.WordsInv) {writes0 : List (Word × Answer E)}
    {bus0 : List Byte} (hw : s.writes = writes0 ++ okWrites colors k)
    (hb : s.bus = bus0 ++ (transaction colors).take (4 * k)) : s.Inv where
  seqInv := by
    intro colors' k' hq'
    cases hq.symm.trans hq'
    exact ⟨hm, hk⟩
  wordsInv := hwords
  progressInv := by
    intro colors' k' hq'
    cases hq.symm.trans hq'
    exact ⟨writes0, bus0, hw, hb⟩

/-- The word due is the marker or a colour's frame (rule R59), so the write of it keeps that all are. -/
theorem wordsInv_append_word {s t : Over.State E} {colors : List ColorTriple} {k : Nat} {w : Word} {a : Answer E}
    (h : s.WordsInv) (hw : wordAt colors k = some w) (ht : t.writes = s.writes ++ [(w, a)]) : t.WordsInv := by
  intro entry hmem
  rw [ht, List.mem_append, List.mem_singleton] at hmem
  obtain hold | rfl := hmem
  · exact h entry hold
  · exact (wordAt_cases hw).2.imp_right fun ⟨c, _, hc⟩ => ⟨c, hc⟩

/-- The answered write of the word due keeps the invariant: it ends the transaction, or both logs grow by word `k`. -/
theorem inv_afterAnswer {s : Over.State E} {colors : List ColorTriple} {k : Nat} {w : Word} (a : TxInput E)
    (rest : List (TxInput E)) (h : s.Inv) (hm : s.mode = .holding) (hq : s.seq = .run colors k)
    (hw : wordAt colors k = some w) : (afterAnswer colors k a (memWrite w a { s with answers := rest })).Inv := by
  obtain ⟨hk, -⟩ := wordAt_cases hw
  have hwords : (afterAnswer colors k a (memWrite w a { s with answers := rest })).WordsInv :=
    wordsInv_append_word h.wordsInv hw (afterAnswer_writes ..)
  obtain ⟨-, -, he⟩ | ⟨rfl, hlast, he⟩ | ⟨e, j, -, he⟩ :=
    afterAnswer_cases colors k a (memWrite w a { s with answers := rest })
  · exact inv_of_idle (by rw [he]; rfl) hwords
  · obtain ⟨writes0, bus0, hwrites, hbus⟩ := h.progressInv colors k hq
    rw [he] at hwords ⊢
    refine inv_of_run (writes0 := writes0) (bus0 := bus0) rfl hm (by omega) hwords ?_ ?_
    · simp [hwrites, okWrites_succ hw, TxInput.answer]
    · simp [hbus, take_transaction_succ hw, TxInput.reached, writeOffset, Config.writeBytes]
  · exact inv_of_idle (by rw [he]; rfl) hwords

/-- Every move keeps the invariant. -/
theorem Move.keeps_inv {s t : Over.State E} (hmove : Move s t) (h : s.Inv) : t.Inv := by
  cases hmove with
  | encServed => exact ⟨h.seqInv, h.wordsInv, h.progressInv⟩
  | wordAnswered colors k w a rest _ hm hq hw _ => exact inv_afterAnswer a rest h hm hq hw
  | runBegun => exact inv_of_idle rfl fun _ hmem => by cases hmem
  | commandAccepted o colors rest _ hm =>
    exact inv_of_run (writes0 := s.writes) (bus0 := s.bus) rfl hm (Nat.zero_le _) h.wordsInv (by simp) (by simp)
  | handedBack _ _ _ _ hq => exact inv_of_idle hq h.wordsInv

/-- Settles O35: a step that goes on is one of five moves, and each keeps the invariant. -/
theorem stepKeepsTheInvariant : Obligations.StepKeepsTheInvariant := by
  intro s t h hstep
  rw [step_eq_stepOf] at hstep
  exact (stepOf_move hstep).keeps_inv h

/-- Settles O36: after reset `seq` is Idle and no word has been handed over. -/
theorem resetMeetsTheInvariant : Obligations.ResetMeetsTheInvariant :=
  inv_of_idle rfl fun _ hmem => by cases hmem

/-! ### Noninterference: the logs are outputs -/

/-- What is left at port ENC and with the host once `fetch` has taken the next operation. -/
def setInputs (encInputs : List (BitVec 24)) (offers : List Offer) (s : Over.State E) : Over.State E :=
  { s with encInputs := encInputs, offers := offers }

/-- Two moves, from `s` to `s'` and from `t` to `t'`, that end in the same block and put out the same. -/
structure SameMove (s t s' t' : Over.State E) : Prop where
  block : SameBlock s' t'
  outputs : SameOutputs s s' t t'

/-- Outcomes that agree in a relation agree in any weaker one. -/
theorem OutcomesAgree.imp {R R' : Over.State E → Over.State E → Prop} (himp : ∀ s t, R s t → R' s t) {x y : Result E}
    (h : OutcomesAgree R x y) : OutcomesAgree R' x y := by
  cases x <;> cases y
  case next.next s t => exact himp s t h
  all_goals exact h

/-- A move that touches no log. -/
theorem sameOutputs_of_no_gain {s s' t t' : Over.State E}
    (hs : s'.writes = s.writes ∧ s'.bus = s.bus ∧ s'.responses = s.responses ∧ s'.encOut = s.encOut)
    (ht : t'.writes = t.writes ∧ t'.bus = t.bus ∧ t'.responses = t.responses ∧ t'.encOut = t.encOut) :
    SameOutputs s s' t t' :=
  .inl ⟨[], [], [], [], by simp [hs, ht]⟩

section SameMove
variable {s t : Over.State E} (h : SameBlock s t)
include h

theorem putResult_sameMove (bytes : List Byte) : SameMove s t (putResult bytes s) (putResult bytes t) where
  block := h
  outputs := .inl ⟨[], [], [], [bytes], by simp⟩

theorem beginTransaction_sameMove (colors : List ColorTriple) :
    SameMove s t (beginTransaction colors s) (beginTransaction colors t) := by
  obtain ⟨hm, hx, -, he, ho, ha⟩ := h
  exact ⟨⟨hm, hx, rfl, he, ho, ha⟩, sameOutputs_of_no_gain ⟨rfl, rfl, rfl, rfl⟩ ⟨rfl, rfl, rfl, rfl⟩⟩

theorem handBack_sameMove : SameMove s t (handBack s) (handBack t) := by
  obtain ⟨-, hx, hq, he, ho, ha⟩ := h
  exact ⟨⟨rfl, hx, hq, he, ho, ha⟩, .inl ⟨[], [], [.handle s.xport], [], by simp [hx]⟩⟩

/-- A new run begins with empty logs on both sides. -/
theorem construct_sameMove (transport : Handle) :
    SameMove s t (construct transport s) (construct transport t) := by
  obtain ⟨-, -, -, he, ho, ha⟩ := h
  exact ⟨⟨rfl, rfl, rfl, he, ho, ha⟩, .inr (by simp)⟩

/-- The reaction to an answer adds responses that the answer alone decides. -/
theorem afterAnswer_sameMove (w : Word) (colors : List ColorTriple) (k : Nat) (a : TxInput E) (rest : List (TxInput E)) :
    SameMove s t (afterAnswer colors k a (memWrite w a { s with answers := rest }))
      (afterAnswer colors k a (memWrite w a { t with answers := rest })) := by
  obtain ⟨q, added, hframe⟩ := afterAnswer_frame colors k a
  obtain ⟨hm, hx, -, he, ho, -⟩ := h
  rw [hframe, hframe]
  exact ⟨⟨hm, hx, rfl, he, ho, rfl⟩, .inl ⟨[(w, a.answer)], a.reached w, added, [], by simp⟩⟩

theorem writeWord_agrees (w : Word) (colors : List ColorTriple) (k : Nat) :
    OutcomesAgree (SameMove s t) (writeWord w colors k s) (writeWord w colors k t) := by
  obtain ⟨-, -, -, -, -, ha⟩ := id h
  cases hs : s.answers with
  | nil => simp [writeWord, ← ha, hs, OutcomesAgree]
  | cons a rest => simpa [writeWord, ← ha, hs, OutcomesAgree] using afterAnswer_sameMove h w colors k a rest

/-- Whether a write is made depends on `mode`, `seq` and the answers, not on a log. -/
theorem emit_agrees (due : List ColorTriple → Nat → Word → Bool) :
    OutcomesAgree (SameMove s t) (emit due s) (emit due t) := by
  obtain ⟨hm, -, hq, -, -, -⟩ := id h
  unfold emit
  rw [← hm, ← hq]
  split
  · rfl
  · rfl
  · split
    · rfl
    · split
      · exact writeWord_agrees h ..
      · rfl

/-- A command agrees when its effect does: whether it is accepted, waits or is refused is in `mode` and `seq`. -/
theorem accept_agrees (o : Offer) {effect : Over.State E → Over.State E} (heffect : SameMove s t (effect s) (effect t)) :
    OutcomesAgree (SameMove s t) (accept o effect s) (accept o effect t) := by
  obtain ⟨hm, hx, hq, he, ho, ha⟩ := h
  unfold accept
  rw [← hm, ← hq]
  split
  · rfl
  · exact ⟨⟨rfl, hx, rfl, he, congrArg (o :: ·) ho, ha⟩,
      sameOutputs_of_no_gain ⟨rfl, rfl, rfl, rfl⟩ ⟨rfl, rfl, rfl, rfl⟩⟩
  · exact heffect

theorem newOf_agrees (transport : Handle) :
    OutcomesAgree (SameMove s t) (newOf transport s) (newOf transport t) := by
  obtain ⟨-, -, hq, -, -, -⟩ := id h
  unfold newOf
  rw [← hq]
  split
  · exact construct_sameMove h transport
  · rfl

theorem execOf_agrees (i : Instr) : OutcomesAgree (SameMove s t) (execOf i s) (execOf i t) := by
  cases i with
  | start => exact emit_agrees h _
  | frame nb ng nr b g r => exact emit_agrees h _
  | endMarker => exact emit_agrees h _
  | encodeDeviceFrame r g b => exact putResult_sameMove h _
  | encodeTransaction colors => exact putResult_sameMove h _
  | new transport => exact newOf_agrees h transport
  | setColors colors => exact accept_agrees h _ (beginTransaction_sameMove h colors)
  | writeStep => exact emit_agrees h _
  | setColor r g b => exact accept_agrees h _ (beginTransaction_sameMove h _)
  | release => exact accept_agrees h _ (handBack_sameMove h)
  | transmit w => exact emit_agrees h _

/-- The next operation is chosen by the inputs and `seq`: two states of the same block find the same operation and take the
same input off, or stop for the same reason. -/
theorem fetch_agrees :
    (∃ i encInputs offers, fetch s = .next (i, setInputs encInputs offers s) ∧
      fetch t = .next (i, setInputs encInputs offers t)) ∨
    (∃ r, fetch s = .fault r ∧ fetch t = .fault r) ∨ (∃ r, fetch s = .refused r ∧ fetch t = .refused r) := by
  obtain ⟨-, -, hq, he, ho, -⟩ := h
  cases hx : s.encInputs with
  | cons x later =>
    exact .inl ⟨decodeEnc x, later, s.offers, fetch_enc hx, by rw [ho]; exact fetch_enc (he ▸ hx)⟩
  | nil =>
    have hxt : t.encInputs = [] := he ▸ hx
    cases hs : s.seq with
    | run colors k =>
      exact .inl ⟨.writeStep, s.encInputs, s.offers, fetch_write hx hs,
        by rw [he, ho]; exact fetch_write hxt (hq ▸ hs)⟩
    | idle =>
      have hst : t.seq = .idle := hq ▸ hs
      cases hoffers : s.offers with
      | nil => exact .inr (.inl ⟨_, fetch_ended hx hs hoffers, fetch_ended hxt hst (ho ▸ hoffers)⟩)
      | cons o rest =>
        have ht : t.offers = o :: rest := ho ▸ hoffers
        cases hd : decodeOffer o with
        | error why => exact .inr (.inr ⟨_, fetch_undecodable hx hs hoffers hd, fetch_undecodable hxt hst ht hd⟩)
        | ok i =>
          exact .inl ⟨i, s.encInputs, rest, fetch_offer hx hs hoffers hd, by rw [he]; exact fetch_offer hxt hst ht hd⟩

theorem stepOf_agrees : OutcomesAgree (SameMove s t) (stepOf s) (stepOf t) := by
  obtain ⟨i, encInputs, offers, hs, ht⟩ | ⟨r, hs, ht⟩ | ⟨r, hs, ht⟩ := fetch_agrees h
  · obtain ⟨hm, hx, hq, -, -, ha⟩ := h
    rw [stepOf_of_fetch hs, stepOf_of_fetch ht]
    have hblock : SameBlock (setInputs encInputs offers s) (setInputs encInputs offers t) :=
      ⟨hm, hx, hq, rfl, rfl, ha⟩
    exact (execOf_agrees hblock i).imp fun _ _ move => ⟨move.block, move.outputs⟩
  · simp [stepOf, hs, ht, OutcomesAgree]
  · simp [stepOf, hs, ht, OutcomesAgree]

end SameMove

/-- Settles O38: steps of two states of the same block make the same move. -/
theorem logsAreOutputs : Obligations.LogsAreOutputs := by
  intro s t h
  rw [step_eq_stepOf, step_eq_stepOf]
  exact (stepOf_agrees h).imp fun _ _ move => move.block

/-- The word that a step writes is the one due (rules R18, R82). -/
theorem Move.word_written {s t : Over.State E} {entry : Word × Answer E} (h : Move s t)
    (hw : t.writes = s.writes ++ [entry]) : ∃ colors k, s.seq = .run colors k ∧ wordAt colors k = some entry.1 := by
  obtain hsame | hnone | ⟨colors, k, w, a, hq, hword, hadd⟩ := h.writes
  · simp [hsame] at hw
  · simp [hnone] at hw
  · have hentry : (w, a) = entry := by simpa [hadd] using hw
    exact ⟨colors, k, hq, by rw [← hentry, hword]⟩

/-- Settles O48: the two moves are the same, and a step that writes hands over the word due. -/
theorem outputsDoNotDependOnTheLogs : Obligations.OutputsDoNotDependOnTheLogs := by
  constructor
  · intro s t s' t' h hs ht
    rw [step_eq_stepOf] at hs ht
    have hagree := stepOf_agrees h
    rw [hs, ht] at hagree
    exact hagree.outputs
  · intro s t entry hs hw
    rw [step_eq_stepOf] at hs
    exact (stepOf_move hs).word_written hw

/-! ### Released is permanent -/

/-- A run that goes on for one step more. -/
theorem runSteps_succ_next {m : Nat} {s t : Over.State E} (h : runSteps (m + 1) s = .next t) :
    ∃ s', stepOf s = .next s' ∧ runSteps m s' = .next t := by
  rw [runSteps_succ] at h
  split at h
  · next s' hs => exact ⟨s', hs, h⟩
  · cases h
  · cases h

theorem runSteps_one (s : Over.State E) : runSteps 1 s = stepOf s := by
  rw [runSteps_succ]
  cases stepOf s <;> rfl

theorem runSteps_succ_of_next {m : Nat} {s s' : Over.State E} (h : stepOf s = .next s') :
    runSteps (m + 1) s = runSteps m s' := by
  simp [runSteps_succ, h]

/-- What every step keeps, a run keeps. -/
theorem runSteps_keeps {P : Over.State E → Prop} (hstep : ∀ s t, P s → stepOf s = .next t → P t) {m : Nat}
    {s t : Over.State E} (hs : P s) (h : runSteps m s = .next t) : P t := by
  induction m generalizing s with
  | zero => cases h; exact hs
  | succ m ih =>
    obtain ⟨s', hnext, hrun⟩ := runSteps_succ_next h
    exact ih (hstep s s' hs hnext) hrun

/-- `t` is Released, its host begins no new run, and nothing has reached the transport or the host since `s`. -/
structure QuietSince (s t : Over.State E) : Prop where
  released : t.mode = .released
  noReset : ∀ h : Handle, Offer.rst h ∉ t.offers
  seq : t.seq = s.seq
  writes : t.writes = s.writes
  bus : t.bus = s.bus
  responses : t.responses = s.responses

/-- Once Released, the one move that is left is port ENC's. -/
theorem Move.keeps_quiet {s t u : Over.State E} (hmove : Move t u) (h : QuietSince s t) : QuietSince s u := by
  have hnot : t.mode ≠ .holding := by simp [h.released]
  cases hmove with
  | encServed => exact { h with }
  | wordAnswered _ _ _ _ _ _ hm => exact absurd hm hnot
  | runBegun transport rest _ _ ho => exact absurd (ho ▸ List.mem_cons_self) (h.noReset transport)
  | commandAccepted _ _ _ _ hm => exact absurd hm hnot
  | handedBack _ _ _ hm => exact absurd hm hnot

/-- Settles O40: every step from a quiet Released state leads to one. -/
theorem releasedIsPermanent : Obligations.ReleasedIsPermanent := by
  intro E m s t hm hno hrun
  have hquiet : QuietSince s t :=
    runSteps_keeps (P := QuietSince s) (fun _ _ h hstep => (stepOf_move hstep).keeps_quiet h)
      ⟨hm, hno, rfl, rfl, rfl, rfl⟩ hrun
  exact ⟨hquiet.released, hquiet.seq, hquiet.writes, hquiet.bus, hquiet.responses⟩

/-! ### Whole commands -/

/-- Port ENC is served first: one step for each input that waits there, and nothing else changes (rule R58). -/
theorem runSteps_drains_enc (s : Over.State E) :
    runSteps s.encInputs.length s =
      .next { s with encInputs := [], encOut := s.encOut ++ s.encInputs.map encResult } := by
  generalize hx : s.encInputs = inputs
  induction inputs generalizing s with
  | nil => cases s; simp_all
  | cons x later ih =>
    have hstep : stepOf s = .next (putResult (encResult x) { s with encInputs := later }) :=
      stepOf_of_fetch (fetch_enc hx)
    rw [List.length_cons, runSteps_succ_of_next hstep, ih _ rfl]
    simp [putResult]

/-- A step of the sequencer: the word due meets the next answer (rule R82). -/
theorem stepOf_write {s : Over.State E} {colors : List ColorTriple} {k : Nat} {w : Word} {a : TxInput E}
    {rest : List (TxInput E)} (he : s.encInputs = []) (hm : s.mode = .holding) (hq : s.seq = .run colors k)
    (hw : wordAt colors k = some w) (ha : s.answers = a :: rest) :
    stepOf s = .next (afterAnswer colors k a (memWrite w a { s with answers := rest })) :=
  (stepOf_of_fetch (fetch_write he hq)).trans (emit_eq hm hq hw rfl ha)

theorem decodeOffer_cmdSetColors (colors : List ColorTriple) :
    decodeOffer (cmdSetColors colors) = .ok (.setColors colors) := by
  simp [decodeOffer, cmdSetColors, Function.comp_def]

/-- A step that accepts a SET_COLORS (rule R81). -/
theorem stepOf_setColors {s : Over.State E} {colors : List ColorTriple} {offers : List Offer} (he : s.encInputs = [])
    (hm : s.mode = .holding) (hq : s.seq = .idle) (ho : s.offers = cmdSetColors colors :: offers) :
    stepOf s = .next (beginTransaction colors { s with offers := offers }) := by
  rw [stepOf_of_fetch (fetch_offer he hq ho (decodeOffer_cmdSetColors colors))]
  simp [execOf, setColorsOf, accept, hm, hq]

/-- The first `n` words of a transaction, all accepted, but not yet its end (rules R82, R83). -/
theorem runSteps_accepted_words {s : Over.State E} {colors : List ColorTriple} {later : List (TxInput E)} {n : Nat}
    (hn : n ≤ colors.length + 1) (he : s.encInputs = []) (hm : s.mode = .holding) (hq : s.seq = .run colors 0)
    (ha : s.answers = List.replicate n .ok ++ later) :
    runSteps n s = .next { s with
      seq := .run colors n, answers := later, writes := s.writes ++ okWrites colors n,
      bus := s.bus ++ (transaction colors).take (4 * n), draws := s.draws + n } := by
  induction n generalizing later with
  | zero => cases s; simp_all
  | succ n ih =>
    obtain ⟨w, hw⟩ := exists_wordAt (colors := colors) (k := n) (by omega)
    have hne : n ≠ colors.length + 1 := by omega
    have hfirst := ih (later := .ok :: later) (by omega) (by simp [ha, List.replicate_succ'])
    rw [runSteps_add n 1 hfirst, runSteps_one]
    refine Eq.trans (stepOf_write he hm rfl hw rfl) ?_
    simp [afterAnswer, hne, setSeq, memWrite, okWrites_succ hw, take_transaction_succ hw, TxInput.answer,
      TxInput.reached, Nat.add_assoc]

/-- The whole transaction, all words accepted, ends with the response Ok (rules R82, R83). -/
theorem runSteps_accepted_transaction {s : Over.State E} {colors : List ColorTriple} {later : List (TxInput E)}
    (he : s.encInputs = []) (hm : s.mode = .holding) (hq : s.seq = .run colors 0)
    (ha : s.answers = List.replicate (colors.length + 2) .ok ++ later) :
    runSteps (colors.length + 2) s = .next { s with
      seq := .idle, answers := later, writes := s.writes ++ okWrites colors (colors.length + 2),
      bus := s.bus ++ transaction colors, responses := s.responses ++ [.ok],
      draws := s.draws + (colors.length + 2) } := by
  have hlast := wordAt_last colors
  have hbus : (transaction colors).take (4 * (colors.length + 1)) ++ markerWord.bytes = transaction colors := by
    rw [← take_transaction_succ hlast, List.take_of_length_le (by simp)]
  have hwords := runSteps_accepted_words (later := .ok :: later) le_rfl he hm hq
    (by simp [ha, List.replicate_succ' (n := colors.length + 1)])
  rw [runSteps_add (colors.length + 1) 1 hwords, runSteps_one]
  refine Eq.trans (stepOf_write he hm rfl hlast rfl) ?_
  simp [afterAnswer, respond, setSeq, memWrite, okWrites_succ hlast, hbus, TxInput.answer, TxInput.reached,
    Nat.add_assoc]

/-- A whole SET_COLORS with every write accepted, from `{Holding, Idle}` and behind the inputs of port ENC (rule R83). -/
theorem runSteps_setColors_accepted {s : Over.State E} {colors : List ColorTriple} {offers : List Offer}
    {later : List (TxInput E)} (hm : s.mode = .holding) (hq : s.seq = .idle)
    (ho : s.offers = cmdSetColors colors :: offers)
    (ha : s.answers = List.replicate (colors.length + 2) .ok ++ later) :
    runSteps (s.encInputs.length + (1 + (colors.length + 2))) s = .next { s with
      offers := offers, answers := later, writes := s.writes ++ okWrites colors (colors.length + 2),
      bus := s.bus ++ transaction colors, responses := s.responses ++ [.ok],
      encInputs := [], encOut := s.encOut ++ s.encInputs.map encResult,
      draws := s.draws + (colors.length + 2) } := by
  have hbegin := (runSteps_one _).trans (stepOf_setColors (s := { s with
    encInputs := [], encOut := s.encOut ++ s.encInputs.map encResult }) rfl hm hq ho)
  rw [runSteps_add _ _ (runSteps_drains_enc s), runSteps_add 1 _ hbegin]
  refine Eq.trans (runSteps_accepted_transaction rfl hm rfl ha) ?_
  simp [hq]

/-- Settles O44: the second command finds `{Holding, Idle}` again, with nothing left at port ENC. -/
theorem repeatedCommandSameBytes : Obligations.RepeatedCommandSameBytes := by
  intro E s colors offers later hm hq ho ha
  have ha' : s.answers =
      List.replicate (colors.length + 2) .ok ++ (List.replicate (colors.length + 2) .ok ++ later) := by
    rw [ha, Nat.two_mul, List.replicate_add, List.append_assoc]
  have hfirst := runSteps_setColors_accepted hm hq ho ha'
  have hsteps : s.encInputs.length + 2 * (colors.length + 3) =
      s.encInputs.length + (1 + (colors.length + 2)) + (0 + (1 + (colors.length + 2))) := by omega
  rw [hsteps, runSteps_add _ _ hfirst]
  exact ⟨_, runSteps_setColors_accepted (offers := offers) (later := later) hm hq rfl rfl, rfl, by simp, hm, hq⟩

/-! ### The bytes of a waiting word -/

/-- A list of some of the elements of `x :: xs` takes `x` or not. -/
theorem sublist_cons_takes_or_not {α : Type} {out xs : List α} {x : α} (h : out.Sublist (x :: xs)) :
    ∃ (p : Bool) (rest : List α), rest.Sublist xs ∧ out = (if p then [x] else []) ++ rest := by
  obtain hskip | ⟨rest, rfl, hrest⟩ := List.sublist_cons_iff.mp h
  · exact ⟨false, out, hskip, rfl⟩
  · exact ⟨true, rest, hrest, rfl⟩

/-- Every choice of the bytes of a word is the choice of some mask. -/
theorem exists_mask_of_sublist {w : Word} {out : List Byte} (h : out.Sublist w.bytes) :
    ∃ mask, maskedBytes mask w = out := by
  obtain ⟨p0, _, h1, rfl⟩ := sublist_cons_takes_or_not h
  obtain ⟨p1, _, h2, rfl⟩ := sublist_cons_takes_or_not h1
  obtain ⟨p2, _, h3, rfl⟩ := sublist_cons_takes_or_not h2
  obtain ⟨p3, _, h4, rfl⟩ := sublist_cons_takes_or_not h3
  obtain rfl := List.sublist_nil.mp h4
  exact ⟨BitVec.ofFnLE ![p0, p1, p2, p3], by simp [maskedBytes]⟩

theorem busWith_of_waiting {s : Over.State E} {w : Word} (h : s.waitingWord = some w) (mask : BitVec 4) :
    s.busWith mask = s.bus ++ maskedBytes mask w := by
  simp [Over.State.busWith, h]

/-- No word waits while no transaction runs, nor while an answer is ready. -/
theorem waitingWord_eq_none {s : Over.State E} (h : s.seq = .idle ∨ s.answers ≠ []) : s.waitingWord = none := by
  unfold Over.State.waitingWord
  split
  · next colors k hq ha => simp [hq, ha] at h
  · rfl

/-- Settles O47: a mask picks a sublist of the word's bytes, and every sublist is picked by a mask. -/
theorem bytesOfAWaitingWordAreFree : Obligations.BytesOfAWaitingWordAreFree := by
  refine fun E s => ⟨fun colors k w hq ha hw => ?_, fun h => busObserved_of_not_waiting (waitingWord_eq_none h)⟩
  have hwait : s.waitingWord = some w := (waitingWord_of_silent hq ha).trans hw
  refine ⟨rfl, fun mask => ⟨maskedBytes mask w, maskedBytes_sublist mask w, busWith_of_waiting hwait mask⟩,
    fun out hout => ?_⟩
  obtain ⟨mask, rfl⟩ := exists_mask_of_sublist (w := w) hout
  exact ⟨mask, busWith_of_waiting hwait mask⟩

/-! ### Reset, and operations that are not enabled -/

/-- Settles O17: reset is construction, with fresh logs. -/
theorem resetValues : Obligations.ResetValues :=
  ⟨fresh_mode _, fresh_seq _, fresh_writes _, fresh_bus _, rfl⟩

theorem emit_of_idle {due : List ColorTriple → Nat → Word → Bool} {s : Over.State E} (hm : s.mode = .holding)
    (hq : s.seq = .idle) : emit due s = .refused .noTransaction := by
  simp [emit, hm, hq]

theorem emit_of_released {due : List ColorTriple → Nat → Word → Bool} {s : Over.State E} (hm : s.mode = .released) :
    emit due s = .refused .consumed := by
  simp [emit, hm]

/-- Settles O30: each of the five operations is the sequencer's write of the words it admits. -/
theorem noWriteWithoutATransaction : Obligations.NoWriteWithoutATransaction := by
  rintro i s (rfl | rfl | rfl | ⟨nb, ng, nr, b, g, r, rfl⟩ | ⟨w, rfl⟩) <;>
    exact ⟨fun hm hq => emit_of_idle hm hq, fun hm => emit_of_released hm⟩

/-! ### The operation that a step runs -/

/-- A step of the host's machine carries out the operation `fetch` finds. -/
theorem step_of_fetch {s s' : State} {i : Instr} (h : fetch s = .next (i, s')) : step s = exec i s' := by
  rw [step_eq_stepOf, exec_eq_execOf, stepOf_of_fetch h]

/-- Settles O33: one clause for each branch of `fetch`. -/
theorem stepRunsTheDecodedOperation : Obligations.StepRunsTheDecodedOperation := by
  refine fun s => ⟨?_, ?_, ?_, ?_, ?_⟩
  · intro x later i hx hi
    cases hi
    exact step_of_fetch (fetch_enc hx)
  · intro colors k hx hq
    have hstep : step s = exec .writeStep s := step_of_fetch (fetch_write hx hq)
    refine ⟨hstep, fun hm hk ha => ?_⟩
    obtain ⟨w, hw⟩ := exists_wordAt hk
    exact hstep.trans (emit_silent hm hq hw rfl ha)
  · intro o offers i hx hq ho hi
    exact step_of_fetch (fetch_offer hx hq ho hi)
  · intro o offers why hx hq ho hi
    simp [step, fetch_undecodable hx hq ho hi]
  · intro hx hq ho
    simp [step, fetch_ended hx hq ho]

end Sys2Proof.Machine

/-!
SUPPORT. Words by their fields and byte streams word by word: what the reader of a transaction does at each word boundary.
-/

namespace Sys2Proof
open Machine

/-! ### MARKER and FRAME words -/

/-- A byte is its four two-bit fields, from bit 7 down (rule R52). -/
theorem byte_eq_append_iff (x : Byte) (a b c d : BitVec 2) :
    x = a ++ b ++ c ++ d ↔
      x.extractLsb' 6 2 = a ∧ x.extractLsb' 4 2 = b ∧ x.extractLsb' 2 2 = c ∧ x.extractLsb' 0 2 = d := by
  constructor
  · rintro rfl
    refine ⟨?_, ?_, ?_, ?_⟩ <;> ext i hi <;> simp <;> grind
  · rintro ⟨rfl, rfl, rfl, rfl⟩
    ext i hi
    simp
    grind

/-- The prefix byte by its fields: `one`, `nb`, `ng`, `nr` (rules R52, R53). -/
theorem prefixByte_eq_append (r g b : Byte) :
    prefixByte r g b = 3#2 ++ topComplement b ++ topComplement g ++ topComplement r := by
  rw [byte_eq_append_iff]
  refine ⟨?_, ?_, ?_, ?_⟩ <;> ext i hi <;> interval_cases i <;> simp [prefixByte, topField, topComplement]

theorem Word.isMarker_iff (w : Word) : w.isMarker = true ↔ w = markerWord := by
  simp [Word.isMarker, markerWord]

/-- A FRAME word is the frame of the colour in its last three bytes (rules R52, R53). -/
theorem Word.isFrame_iff (w : Word) : w.isFrame = true ↔ w = deviceFrame ⟨w.b3, w.b2, w.b1⟩ := by
  have hfields := byte_eq_append_iff w.b0 3#2 (topComplement w.b1) (topComplement w.b2) (topComplement w.b3)
  rw [← prefixByte_eq_append] at hfields
  calc w.isFrame = true ↔ w.b0 = prefixByte w.b3 w.b2 w.b1 := by
        rw [hfields]; simp [Word.isFrame, frameFieldsOk, and_assoc]
    _ ↔ w = deviceFrame ⟨w.b3, w.b2, w.b1⟩ := by cases w; simp [deviceFrame]

@[simp] theorem isMarker_markerWord : markerWord.isMarker = true := rfl

@[simp] theorem isFrame_deviceFrame (c : ColorTriple) : (deviceFrame c).isFrame = true :=
  (Word.isFrame_iff _).mpr rfl

/-- The first byte of a frame has the field `one`, and that of the marker has not (rule R55). -/
@[simp] theorem isMarker_deviceFrame (c : ColorTriple) : (deviceFrame c).isMarker = false := by
  by_contra h
  have hm := (Word.isMarker_iff (deviceFrame c)).mp (by simpa using h)
  have hf : markerWord.isFrame = true := hm ▸ isFrame_deviceFrame c
  exact absurd hf (by decide)

/-! ### The stream decoder, one word at a time -/

theorem decodeStream_start (rest : List Byte) : decodeStream (markerWord.bytes ++ rest) = decodeFrames rest := rfl

theorem decodeFrames_end : decodeFrames markerWord.bytes = .ok [] := rfl

theorem decodeFrames_frame (c : ColorTriple) (rest : List Byte) :
    decodeFrames ((deviceFrame c).bytes ++ rest) = (decodeFrames rest).map (c :: ·) := by
  have hm : (Word.mk (prefixByte c.r c.g c.b) c.b c.g c.r).isMarker = false := isMarker_deviceFrame c
  have hf : (Word.mk (prefixByte c.r c.g c.b) c.b c.g c.r).isFrame = true := isFrame_deviceFrame c
  simp only [deviceFrame, Word.bytes, List.cons_append, List.nil_append]
  rw [decodeFrames]
  cases decodeFrames rest <;> simp [hm, hf, Except.map]

/-- A stream that reads as a chain begins with the start marker. -/
theorem decodeStream_ok {bytes : List Byte} {colors : List ColorTriple} (h : decodeStream bytes = .ok colors) :
    ∃ rest, bytes = markerWord.bytes ++ rest ∧ decodeFrames rest = .ok colors := by
  unfold decodeStream at h
  split at h
  · cases h
  · next b0 b1 b2 b3 rest =>
    split at h
    · next hm =>
      cases (Word.isMarker_iff _).mp hm
      exact ⟨rest, rfl, h⟩
    · cases h
  · cases h

/-- Words that read as a chain are the end marker and nothing more, or a frame and words that read as the rest. -/
theorem decodeFrames_ok {bytes : List Byte} {colors : List ColorTriple} (h : decodeFrames bytes = .ok colors) :
    (bytes = markerWord.bytes ∧ colors = []) ∨
    (∃ c rest tail, bytes = (deviceFrame c).bytes ++ rest ∧ decodeFrames rest = .ok tail ∧ colors = c :: tail) := by
  rw [decodeFrames.eq_def] at h
  split at h
  · cases h
  · next b0 b1 b2 b3 rest =>
    split_ifs at h with hm hrest hf
    · cases h
      cases (Word.isMarker_iff _).mp hm
      exact .inl ⟨by simp [List.isEmpty_iff.mp hrest, Word.bytes, markerWord], rfl⟩
    · split at h
      · next tail htail =>
        cases h
        have hbytes := congrArg Word.bytes ((Word.isFrame_iff _).mp hf)
        exact .inr ⟨_, rest, tail, congrArg (· ++ rest) hbytes, htail, rfl⟩
      · cases h
  · cases h

/-- Settles O12, by induction on the chain: each frame is read as its colour, and the end marker ends the reading. -/
theorem streamRoundTrip : Obligations.StreamRoundTrip := by
  intro colors
  rw [transaction, List.append_assoc, decodeStream_start]
  induction colors with
  | nil => exact decodeFrames_end
  | cons c colors ih => rw [List.flatMap_cons, List.append_assoc, decodeFrames_frame, ih]; rfl

/-- What reads as a chain after the start marker is the chain's frames and the end marker, by induction on the chain. -/
theorem decodeFrames_sound {bytes : List Byte} {colors : List ColorTriple} (h : decodeFrames bytes = .ok colors) :
    bytes = colors.flatMap (fun c => (deviceFrame c).bytes) ++ markerWord.bytes := by
  induction colors generalizing bytes with
  | nil =>
    obtain ⟨rfl, -⟩ | ⟨_, _, _, -, -, hcons⟩ := decodeFrames_ok h
    · rfl
    · cases hcons
  | cons c colors ih =>
    obtain ⟨-, hnil⟩ | ⟨_, rest, _, rfl, hrest, hcons⟩ := decodeFrames_ok h
    · cases hnil
    · cases hcons
      rw [ih hrest, List.flatMap_cons, List.append_assoc]

/-- Settles O13: the start marker, and after it the only bytes that read as the chain's frames. -/
theorem streamDecodeSound : Obligations.StreamDecodeSound := by
  intro bytes colors h
  obtain ⟨rest, rfl, hrest⟩ := decodeStream_ok h
  rw [transaction, List.append_assoc, decodeFrames_sound hrest]

end Sys2Proof

/-!
SUPPORT. What the sequencer's write does to each field, the operations that make it, and the bytes that a failed command
leaves on the bus.
-/

namespace Sys2Proof.Machine

variable {E : Type}

/-! ### The four bytes of a word in its transaction -/

/-- Word `k` is the four bytes at offset `4k` (rules R35, R88). -/
theorem take_drop_transaction {colors : List ColorTriple} {k : Nat} {w : Word} (hw : wordAt colors k = some w) :
    ((transaction colors).drop (4 * k)).take 4 = w.bytes := by
  obtain ⟨hk, -⟩ := wordAt_cases hw
  have hlen : ((transaction colors).take (4 * k)).length = 4 * k := by simp; omega
  rw [List.take_drop, ← Nat.mul_succ, take_transaction_succ hw, List.drop_left' hlen]

/-- A transaction cut inside word `k`: the words before it and the first `j` of its bytes. -/
theorem take_transaction_add {colors : List ColorTriple} {k : Nat} {w : Word} (hw : wordAt colors k = some w) (j : Fin 5) :
    (transaction colors).take (4 * k + j) = (transaction colors).take (4 * k) ++ w.bytes.take j := by
  have hj : min j.val 4 = j := by omega
  rw [List.take_add, ← take_drop_transaction hw, List.take_take, hj]

/-- Settles O7: an index has a word exactly up to N+1, and word `k` is the four bytes at offset `4k`. -/
theorem wordsOfATransaction : Obligations.WordsOfATransaction := by
  intro colors
  refine ⟨length_transaction colors, wordAt_zero colors, wordAt_last colors, fun i c hc => ?_, fun k => ?_,
    fun k w => take_drop_transaction⟩
  · obtain ⟨hi, rfl⟩ := List.getElem?_eq_some_iff.mp hc
    exact wordAt_frame colors i hi
  · rw [Option.isSome_iff_exists]
    exact ⟨fun ⟨w, hw⟩ => (wordAt_cases hw).1, exists_wordAt⟩

/-! ### The sequencer's reaction to an answer, field by field -/

section afterAnswer
variable (colors : List ColorTriple) (k : Nat) (a : TxInput E) (s : Over.State E)

@[simp] theorem afterAnswer_xport : (afterAnswer colors k a s).xport = s.xport := by
  obtain ⟨q, added, h⟩ := afterAnswer_frame colors k a
  rw [h]

@[simp] theorem afterAnswer_encOut : (afterAnswer colors k a s).encOut = s.encOut := by
  obtain ⟨q, added, h⟩ := afterAnswer_frame colors k a
  rw [h]

@[simp] theorem afterAnswer_encInputs : (afterAnswer colors k a s).encInputs = s.encInputs := by
  obtain ⟨q, added, h⟩ := afterAnswer_frame colors k a
  rw [h]

@[simp] theorem afterAnswer_offers : (afterAnswer colors k a s).offers = s.offers := by
  obtain ⟨q, added, h⟩ := afterAnswer_frame colors k a
  rw [h]

@[simp] theorem afterAnswer_answers : (afterAnswer colors k a s).answers = s.answers := by
  obtain ⟨q, added, h⟩ := afterAnswer_frame colors k a
  rw [h]

theorem afterAnswer_fail (e : E) (j : Fin 5) :
    afterAnswer colors k (.fail e j) s = respond (.err e) (setSeq .idle s) := rfl

theorem afterAnswer_ok_last : afterAnswer colors (colors.length + 1) .ok s = respond .ok (setSeq .idle s) := by
  simp [afterAnswer]

end afterAnswer

theorem afterAnswer_ok_before_last {colors : List ColorTriple} {k : Nat} (s : Over.State E) (hk : k ≤ colors.length) :
    afterAnswer colors k .ok s = setSeq (.run colors (k + 1)) s := by
  have hne : k ≠ colors.length + 1 := by omega
  simp [afterAnswer, hne]

/-! ### The operations that write -/

/-- A write of another word than the one due is refused (rule R86). -/
theorem emit_not_due {due : List ColorTriple → Nat → Word → Bool} {s : Over.State E} {colors : List ColorTriple} {k : Nat}
    {w : Word} (hm : s.mode = .holding) (hq : s.seq = .run colors k) (hw : wordAt colors k = some w)
    (hd : due colors k w = false) : emit due s = .refused .wordNotDue := by
  simp [emit, hm, hq, hw, hd]

/-- Settles O29: each of the four operations admits only its own word, or its own index. -/
theorem wordsNotDueAreRefused : Obligations.WordsNotDueAreRefused := by
  intro s colors k w hm hq hw
  refine ⟨fun hk => ?_, fun hk => ?_, fun nb ng nr b g r hne => ?_, fun w' hne => ?_⟩
  · exact emit_not_due hm hq hw (by simp [hk])
  · exact emit_not_due hm hq hw (by simp [hk])
  · exact emit_not_due hm hq hw (by simp [hne])
  · exact emit_not_due hm hq hw (by simp [hne.symm])

/-- Settles O28: TRANSMIT of the word due and WRITE_STEP are the same write, and the sequencer's reaction is one for each
answer. -/
theorem transmitCarriesTheWordDue : Obligations.TransmitCarriesTheWordDue := by
  intro s colors k w a rest hm hq hw ha
  refine ⟨afterAnswer colors k a (memWrite w a { s with answers := rest }), emit_eq hm hq hw (by simp) ha,
    emit_eq hm hq hw rfl ha, by simp, by simp, by simp, by simp, by simp, by simp, by simp, by simp, ?_, ?_, ?_⟩
  · rintro rfl hk
    simp [afterAnswer_ok_before_last _ hk]
  · rintro rfl rfl
    simp [afterAnswer_ok_last]
  · rintro e j rfl
    simp [afterAnswer_fail]

/-- A write hands the word due over, takes one answer, and adds one entry and the bytes that the answer lets out. -/
theorem emit_reaches_transport {due : List ColorTriple → Nat → Word → Bool} {s t : Over.State E} {i : Instr}
    (hdue : ∀ colors k w, due colors k w = true → Emits i colors k w) (h : emit due s = .next t) :
    ∃ colors k w a, s.seq = .run colors k ∧ wordAt colors k = some w ∧ Emits i colors k w ∧
      s.answers = a :: t.answers ∧ t.writes = s.writes ++ [(w, a.answer)] ∧ t.bus = s.bus ++ a.reached w := by
  obtain ⟨colors, k, w, a, rest, -, hq, hw, hd, ha, rfl⟩ := emit_next h
  exact ⟨colors, k, w, a, hq, hw, hdue colors k w hd, by simpa using ha, by simp, by simp⟩

/-- A move that leaves the transport and its logs alone. -/
def LeavesTransport (s t : Over.State E) : Prop :=
  t.writes = s.writes ∧ t.bus = s.bus ∧ t.answers = s.answers

/-- A command leaves the transport alone when its effect does: it waits or takes effect. -/
theorem accept_leavesTransport {o : Offer} {effect : Over.State E → Over.State E} {s t : Over.State E}
    (heffect : LeavesTransport s (effect s)) (h : accept o effect s = .next t) : LeavesTransport s t := by
  obtain ⟨-, ⟨_, _, -, rfl⟩ | ⟨-, rfl⟩⟩ := accept_next h
  · exact ⟨rfl, rfl, rfl⟩
  · exact heffect

/-- Settles O39, by the operations: those that write are the sequencer's write, NEW begins the logs afresh, and the others
leave the transport alone. -/
theorem onlyWritesReachTheTransport : Obligations.OnlyWritesReachTheTransport := by
  intro i s t h
  cases i with
  | start => exact .inl (emit_reaches_transport (by simp [Emits]) h)
  | frame nb ng nr b g r => exact .inl (emit_reaches_transport (by simp [Emits, and_assoc]) h)
  | endMarker => exact .inl (emit_reaches_transport (by simp [Emits]) h)
  | writeStep => exact .inl (emit_reaches_transport (by simp [Emits]) h)
  | transmit w => exact .inl (emit_reaches_transport (by simp [Emits]) h)
  | new transport =>
    obtain ⟨-, rfl⟩ := newOf_next h
    exact .inr (.inl ⟨⟨transport, rfl⟩, rfl, rfl, rfl⟩)
  | encodeDeviceFrame r g b => cases h; exact .inr (.inr ⟨by simp [Emits], rfl, rfl, rfl⟩)
  | encodeTransaction colors => cases h; exact .inr (.inr ⟨by simp [Emits], rfl, rfl, rfl⟩)
  | setColors colors => exact .inr (.inr ⟨by simp [Emits], accept_leavesTransport ⟨rfl, rfl, rfl⟩ h⟩)
  | setColor r g b => exact .inr (.inr ⟨by simp [Emits], accept_leavesTransport ⟨rfl, rfl, rfl⟩ h⟩)
  | release => exact .inr (.inr ⟨by simp [Emits], accept_leavesTransport ⟨rfl, rfl, rfl⟩ h⟩)

/-! ### A command that fails -/

/-- A SET_COLORS whose word `n` fails, from `{Holding, Idle}` and behind the inputs of port ENC (rules R38, R83). -/
theorem runSteps_setColors_failed {s : Over.State E} {colors : List ColorTriple} {offers : List Offer} {n : Nat} {w : Word}
    {e : E} {j : Fin 5} {later : List (TxInput E)} (hm : s.mode = .holding) (hq : s.seq = .idle)
    (ho : s.offers = cmdSetColors colors :: offers) (hw : wordAt colors n = some w)
    (ha : s.answers = List.replicate n .ok ++ .fail e j :: later) :
    runSteps (s.encInputs.length + (1 + (n + 1))) s = .next { s with
      offers := offers, answers := later, writes := s.writes ++ okWrites colors n ++ [(w, .fail e)],
      bus := s.bus ++ (transaction colors).take (4 * n + j), responses := s.responses ++ [.err e],
      encInputs := [], encOut := s.encOut ++ s.encInputs.map encResult, draws := s.draws + (n + 1) } := by
  have hbegin := (runSteps_one _).trans (stepOf_setColors (s := { s with
    encInputs := [], encOut := s.encOut ++ s.encInputs.map encResult }) rfl hm hq ho)
  have hwords := runSteps_accepted_words (s := beginTransaction colors { s with
    encInputs := [], encOut := s.encOut ++ s.encInputs.map encResult, offers := offers })
    (wordAt_cases hw).1 rfl hm rfl ha
  rw [runSteps_add _ _ (runSteps_drains_enc s), runSteps_add 1 _ hbegin, runSteps_add n 1 hwords, runSteps_one]
  refine Eq.trans (stepOf_write rfl hm rfl hw rfl) ?_
  simp [afterAnswer_fail, respond, setSeq, memWrite, hq, take_transaction_add hw, TxInput.answer, TxInput.reached,
    Nat.add_assoc]

/-- Every length up to that of the transaction is reached inside a word, at its `j` of 0 to 4. -/
theorem exists_write_of_length {words m : Nat} (hm : m ≤ 4 * (words + 1)) :
    ∃ (n : Nat) (j : Fin 5), n ≤ words ∧ 4 * n + j.val = m := by
  exact ⟨min (m / 4) words, ⟨m - 4 * min (m / 4) words, by omega⟩, Nat.min_le_right .., by simp; omega⟩

/-- Settles O43: word `n` failing after `j` bytes leaves the first `4n + j` bytes of the transaction, and every length is
such a sum. -/
theorem busAfterFailureIsAnyPrefix : Obligations.BusAfterFailureIsAnyPrefix := by
  refine ⟨fun s colors k w e j rest hm hq hw ha => ?_, fun E s colors offers hm hq ho => ⟨?_, ?_⟩⟩
  · exact ⟨_, emit_eq hm hq hw rfl ha, by simp [TxInput.reached, Word.bytes]⟩
  · intro n e j later hn ha
    obtain ⟨w, hw⟩ := exists_wordAt (colors := colors) (k := n) (by omega)
    have hrun := runSteps_setColors_failed hm hq ho hw ha
    rw [Nat.add_comm 1] at hrun
    exact ⟨_, 4 * n + j, hrun, by omega, rfl, rfl⟩
  · intro e m hlen
    obtain ⟨n, j, hn, rfl⟩ := exists_write_of_length hlen
    obtain ⟨w, hw⟩ := exists_wordAt hn
    have hrun := runSteps_setColors_failed (s := { s with answers := List.replicate n .ok ++ [.fail e j] })
      hm hq ho hw rfl
    exact ⟨_, _, _, hrun, rfl, rfl, hm, hq⟩

end Sys2Proof.Machine

/-!
SUPPORT. The prefix byte as a number, the words of the wire by their fields, and the decoder and the encoder as inverses of
each other.
-/

namespace Sys2Proof
open Machine

/-! ### The prefix byte as a number -/

theorem toNat_topComplement (v : Byte) : (topComplement v).toNat = 3 - v.toNat / 64 := by
  have htop : (v.toNat >>> 6) % 4 = v.toNat / 64 := by rw [Nat.shiftRight_eq_div_pow]; omega
  simp [topComplement, htop]

/-- Rule R53's mask: whatever the width of the complement, it leaves the complement of the channel's top two bits. -/
theorem toNat_maskedComplement {n : Nat} (v : Byte) (hn : 8 ≤ n) :
    ((~~~(v.setWidth n) >>> 6) &&& BitVec.ofNat n 3).toNat = 3 - v.toNat / 64 := by
  obtain ⟨m, hpow⟩ : 2 ^ 8 ∣ 2 ^ n := Nat.pow_dvd_pow 2 hn
  have hm : 0 < m := Nat.pos_of_ne_zero (by rintro rfl; simp at hpow)
  have hv : v.toNat % 2 ^ n = v.toNat := Nat.mod_eq_of_lt (by omega)
  have h3 : 3 % 2 ^ n = 2 ^ 2 - 1 := Nat.mod_eq_of_lt (by omega)
  simp only [BitVec.toNat_and, BitVec.toNat_ushiftRight, BitVec.toNat_not, BitVec.toNat_setWidth, BitVec.toNat_ofNat,
    hv, h3, Nat.and_two_pow_sub_one_eq_mod, Nat.shiftRight_eq_div_pow]
  omega

theorem toNat_topField (v : Byte) : (topField v).toNat = 3 - v.toNat / 64 := by
  have h := toNat_maskedComplement v (Nat.le_refl 8)
  rwa [BitVec.setWidth_eq] at h

/-- At 8 bits the mask changes nothing: the shift leaves two bits only (rule R53). -/
theorem topField_eq_shift (v : Byte) : topField v = ~~~v >>> 6 := by
  apply BitVec.eq_of_toNat_eq
  rw [toNat_topField, BitVec.toNat_ushiftRight, BitVec.toNat_not, Nat.shiftRight_eq_div_pow]
  omega

theorem toNat_append_field {n : Nat} (x : BitVec n) (y : BitVec 2) : (x ++ y).toNat = 4 * x.toNat + y.toNat := by
  rw [BitVec.toNat_append, ← Nat.shiftLeft_add_eq_or_of_lt y.isLt, Nat.shiftLeft_eq, Nat.mul_comm]

theorem toNat_prefixByte (r g b : Byte) :
    (prefixByte r g b).toNat = 255 - 16 * (b.toNat / 64) - 4 * (g.toNat / 64) - r.toNat / 64 := by
  simp only [prefixByte_eq_append, toNat_append_field, toNat_topComplement, BitVec.toNat_ofNat]
  omega

/-- The prefix by its fields, from bit 7 down: `one`, `nb`, `ng`, `nr` (rules R52, R53). -/
theorem prefixByte_fields (r g b : Byte) :
    (prefixByte r g b).extractLsb' 6 2 = 3#2 ∧ (prefixByte r g b).extractLsb' 4 2 = topComplement b ∧
      (prefixByte r g b).extractLsb' 2 2 = topComplement g ∧ (prefixByte r g b).extractLsb' 0 2 = topComplement r :=
  (byte_eq_append_iff ..).mp (prefixByte_eq_append r g b)

/-- The closed form of rule R53 that complements the three tops at once. -/
theorem prefixByte_eq_xor (r g b : Byte) :
    prefixByte r g b =
      0xFF#8 ^^^ (((b.extractLsb' 6 2).setWidth 8 <<< 4) ||| ((g.extractLsb' 6 2).setWidth 8 <<< 2) |||
        (r.extractLsb' 6 2).setWidth 8) := by
  ext i hi
  interval_cases i <;> simp [prefixByte, topField]

/-- Settles O1: the fields of the prefix and its value as a number give every form of it. -/
theorem prefixFormulaAndClosedForms : Obligations.PrefixFormulaAndClosedForms := by
  refine ⟨fun r g b => ?_, topField_eq_shift, fun n v hn => ?_⟩
  · obtain ⟨hone, hnb, hng, hnr⟩ := prefixByte_fields r g b
    exact ⟨rfl, hone, hnb, hng, hnr, prefixByte_eq_xor r g b, prefixByte_eq_append r g b, toNat_prefixByte r g b⟩
  · rw [toNat_maskedComplement v hn, toNat_topField]

/-! ### The 32-bit picture of a word -/

/-- A word's bytes at their bits of its picture: `B0` is bits 31:24 (rule R52). -/
theorem wordPicture_fields (w : Word) :
    (∀ i n, i + n ≤ 8 → (wordPicture w).extractLsb' (24 + i) n = w.b0.extractLsb' i n) ∧
    (wordPicture w).extractLsb' 16 8 = w.b1 ∧ (wordPicture w).extractLsb' 8 8 = w.b2 ∧
      (wordPicture w).extractLsb' 0 8 = w.b3 := by
  refine ⟨fun i n hin => ?_, ?_, ?_, ?_⟩ <;> ext j hj <;> simp [wordPicture] <;> grind

/-- The mask of a FRAME word keeps the field `one` alone (rule R52). -/
theorem and_frameMask (x : BitVec 32) : x &&& 0xC0000000#32 = (x.extractLsb' 30 2).setWidth 32 <<< 30 := by
  ext i hi
  interval_cases i <;> simp

/-- Settles O2: the bytes of the frame at their bits of the picture, and the fields of the prefix at its. -/
theorem frameWordFields : Obligations.FrameWordFields := by
  intro c
  obtain ⟨hone, hnb, hng, hnr⟩ := prefixByte_fields c.r c.g c.b
  obtain ⟨hb0, hb1, hb2, hb3⟩ := wordPicture_fields (deviceFrame c)
  have htop : (wordPicture (deviceFrame c)).extractLsb' 30 2 = 3#2 := (hb0 6 2 (by decide)).trans hone
  refine ⟨rfl, htop, (hb0 4 2 (by decide)).trans hnb, (hb0 2 2 (by decide)).trans hng, (hb0 0 2 (by decide)).trans hnr,
    hb1, hb2, hb3, ?_, ?_, ?_, ?_, ?_, ?_, by rw [and_frameMask, htop]; rfl⟩ <;>
    simp [deviceFrame, prefixByte, topField]

/-! ### The words that can be emitted -/

/-- A frame carries its colour unmodified, so it is the frame of no other (rule R52). -/
theorem deviceFrame_injective {c c' : ColorTriple} (h : deviceFrame c = deviceFrame c') : c = c' :=
  congrArg (fun w : Word => (⟨w.b3, w.b2, w.b1⟩ : ColorTriple)) h

theorem emittable_iff (w : Word) : w.emittable = true ↔ w = markerWord ∨ ∃ c, w = deviceFrame c := by
  rw [Word.emittable, Bool.or_eq_true, Word.isMarker_iff]
  refine or_congr_right ⟨fun hf => ⟨_, (Word.isFrame_iff w).mp hf⟩, ?_⟩
  rintro ⟨c, rfl⟩
  exact isFrame_deviceFrame c

/-- Settles O11, by the check on each side of it and the colour that a frame carries. -/
theorem emittableWords : Obligations.EmittableWords :=
  ⟨emittable_iff, fun _ _ => deviceFrame_injective⟩

theorem deviceFrame_ne_markerWord (c : ColorTriple) : deviceFrame c ≠ markerWord := fun h => by
  have hm := isMarker_deviceFrame c
  rw [h] at hm
  cases hm

/-- Settles O10: the field `one` sets a frame apart from the marker; the examples are computed. -/
theorem markerAndFrameToldApart : Obligations.MarkerAndFrameToldApart := by
  refine ⟨fun c => ⟨(prefixByte_fields c.r c.g c.b).1, ?_, deviceFrame_ne_markerWord c, isMarker_deviceFrame c,
    isFrame_deviceFrame c⟩, rfl, rfl, rfl, rfl, rfl⟩
  have hprefix : (deviceFrame c).b0.toNat = _ := toNat_prefixByte c.r c.g c.b
  omega

/-- Settles O9: both markers of every chain are the MARKER word, whose bits are computed. -/
theorem markerWordIsZero : Obligations.MarkerWordIsZero :=
  ⟨rfl, rfl, fun colors => ⟨wordAt_zero colors, wordAt_last colors⟩⟩

/-! ### Decoding and encoding -/

@[simp] theorem packColor_unpackColor (x : BitVec 24) : packColor (unpackColor x) = x := by
  ext i hi
  simp [packColor, unpackColor]
  grind

/-- The FRAME operation of a colour: its prefix fields are the ones the colour determines (rule R52). -/
def frameFor (c : ColorTriple) : Instr :=
  .frame (topComplement c.b) (topComplement c.g) (topComplement c.r) c.b c.g c.r

/-- A well-formed FRAME is the FRAME of its colour. -/
theorem frame_wellFormed_iff (nb ng nr : BitVec 2) (b g r : Byte) :
    (Instr.frame nb ng nr b g r).wellFormed = true ↔ Instr.frame nb ng nr b g r = frameFor ⟨r, g, b⟩ := by
  simp [Instr.wellFormed, frameFieldsOk, frameFor, and_assoc]

theorem frameWord_topComplement (r g b : Byte) :
    frameWord (topComplement b) (topComplement g) (topComplement r) b g r = deviceFrame ⟨r, g, b⟩ := by
  simp [frameWord, deviceFrame, prefixByte_eq_append]

theorem encode_frameFor (c : ColorTriple) : encode (frameFor c) = some (.w32 .later (deviceFrame c)) := by
  simp [encode, frameFor, frameWord_topComplement]

theorem frameOfWord_deviceFrame (c : ColorTriple) : frameOfWord (deviceFrame c) = frameFor c := by
  obtain ⟨-, hnb, hng, hnr⟩ := prefixByte_fields c.r c.g c.b
  simp [frameOfWord, deviceFrame, frameFor, hnb, hng, hnr]

theorem decodeWord_deviceFrame (c : ColorTriple) : decodeWord .later (deviceFrame c) = .ok (frameFor c) := by
  simp [decodeWord, frameOfWord_deviceFrame]

/-- Settles O14, by the operations: each format is read back field by field; a FRAME is read by its colour. -/
theorem decodeOfEncode : Obligations.DecodeOfEncode := by
  intro i p hwf he
  cases i with
  | start => cases he; rfl
  | frame nb ng nr b g r =>
    rw [(frame_wellFormed_iff ..).mp hwf] at he ⊢
    rw [encode_frameFor] at he
    cases he
    exact decodeWord_deviceFrame _
  | endMarker => cases he; rfl
  | encodeDeviceFrame r g b => cases he; simp [decode, decodeEnc, Instr.canonical]
  | encodeTransaction colors => cases he
  | new transport => cases he; rfl
  | setColors colors => cases he; exact decodeOffer_cmdSetColors colors
  | writeStep => cases he
  | setColor r g b => cases he; exact decodeOffer_cmdSetColors [⟨r, g, b⟩]
  | release => cases he; rfl
  | transmit w => cases he; exact if_pos hwf

/-- What a word of a transaction can be when it is an operation (rules R51, R52, R55). -/
theorem decodeWord_ok {pos : WordPos} {w : Word} {i : Instr} (h : decodeWord pos w = .ok i) :
    (pos = .first ∧ w = markerWord ∧ i = .start) ∨ (pos = .later ∧ w = markerWord ∧ i = .endMarker) ∨
      ∃ c, pos = .later ∧ w = deviceFrame c ∧ i = frameFor c := by
  cases pos with
  | first =>
    rw [decodeWord] at h
    split_ifs at h with hm
    cases h
    exact .inl ⟨rfl, (Word.isMarker_iff w).mp hm, rfl⟩
  | later =>
    rw [decodeWord] at h
    split_ifs at h with hm hf <;> cases h
    · exact .inr (.inl ⟨rfl, (Word.isMarker_iff w).mp hm, rfl⟩)
    · have hw := (Word.isFrame_iff w).mp hf
      exact .inr (.inr ⟨_, rfl, hw, (congrArg frameOfWord hw).trans (frameOfWord_deviceFrame _)⟩)

/-- An offer that is an operation is the record of that operation (rules R50, R56). -/
theorem encode_of_decodeOffer {o : Offer} {i : Instr} (h : decodeOffer o = .ok i) :
    i.wellFormed = true ∧ encode i = some (.offer o) := by
  cases o with
  | rst transport => cases h; exact ⟨rfl, rfl⟩
  | cmd op n colors =>
    rw [decodeOffer] at h
    split_ifs at h with hop hlen hrelease <;> cases h
    · exact ⟨rfl, by simp [encode, cmdSetColors, hop, hlen, Function.comp_def]⟩
    · obtain ⟨rfl, rfl⟩ := hrelease
      have hop1 : op = 1#1 := by bv_omega
      exact ⟨rfl, by rw [hop1]; rfl⟩

/-- Settles O15, by the kinds of packets: what each reads as is well formed and has that packet. -/
theorem encodeOfDecode : Obligations.EncodeOfDecode := by
  intro i p h
  cases p with
  | offer o => exact encode_of_decodeOffer h
  | enc x => cases h; exact ⟨rfl, congrArg (fun y => some (Packet.enc y)) (packColor_unpackColor x)⟩
  | w32 pos w =>
    obtain ⟨rfl, rfl, rfl⟩ | ⟨rfl, rfl, rfl⟩ | ⟨c, rfl, rfl, rfl⟩ := decodeWord_ok h
    · exact ⟨rfl, rfl⟩
    · exact ⟨rfl, rfl⟩
    · exact ⟨(frame_wellFormed_iff ..).mpr rfl, encode_frameFor c⟩
  | tx w =>
    rw [decode] at h
    split_ifs at h with hw
    cases h
    exact ⟨hw, rfl⟩

/-- Settles O16: the decoder run on five words. -/
theorem specWordsDecode : Obligations.SpecWordsDecode := by
  refine ⟨?_, ?_, ?_, ?_, ?_⟩ <;> decide

end Sys2Proof

/-!
SUPPORT. The wire words and RELEASE as moves of the controller, port ENC served input by input, and the response that each
operation gives.
-/

namespace Sys2Proof.Machine

variable {E : Type}

/-! ### The wire words and RELEASE -/

section emit
variable {due : List ColorTriple → Nat → Word → Bool} {s : Over.State E} {colors : List ColorTriple} {k : Nat} {w : Word}
  {rest : List (TxInput E)}

/-- The write due is accepted before the last word (rules R36, R82). -/
theorem emit_accepted (hm : s.mode = .holding) (hq : s.seq = .run colors k) (hw : wordAt colors k = some w)
    (hd : due colors k w = true) (ha : s.answers = .ok :: rest) (hk : k ≤ colors.length) :
    emit due s = .next { s with
      seq := .run colors (k + 1), writes := s.writes ++ [(w, .ok)], bus := s.bus ++ w.bytes, answers := rest,
      draws := s.draws + 1 } := by
  rw [emit_eq hm hq hw hd ha, afterAnswer_ok_before_last _ hk]
  rfl

/-- The write of the last word is accepted: the command completes (rules R36, R82). -/
theorem emit_accepted_last (hm : s.mode = .holding) (hq : s.seq = .run colors (colors.length + 1))
    (hd : due colors (colors.length + 1) markerWord = true) (ha : s.answers = .ok :: rest) :
    emit due s = .next { s with
      seq := .idle, writes := s.writes ++ [(markerWord, .ok)], bus := s.bus ++ markerWord.bytes,
      responses := s.responses ++ [.ok], answers := rest, draws := s.draws + 1 } := by
  rw [emit_eq hm hq (wordAt_last colors) hd ha, afterAnswer_ok_last]
  rfl

/-- The write due fails after `j` bytes: the command ends with the error (rules R38, R82, R104). -/
theorem emit_failed {e : E} {j : Fin 5} (hm : s.mode = .holding) (hq : s.seq = .run colors k)
    (hw : wordAt colors k = some w) (hd : due colors k w = true) (ha : s.answers = .fail e j :: rest) :
    emit due s = .next { s with
      seq := .idle, writes := s.writes ++ [(w, .fail e)], bus := s.bus ++ w.bytes.take j.val,
      responses := s.responses ++ [.err e], answers := rest, draws := s.draws + 1 } :=
  emit_eq hm hq hw hd ha

end emit

/-- The first bytes of the MARKER word are zero bytes (rules R38, R51). -/
theorem take_bytes_markerWord (j : Fin 5) : markerWord.bytes.take j.val = List.replicate j.val 0 := by
  revert j
  decide

/-- Settles O25: the word due at index 0 is the marker, which is not the last word. -/
theorem startIsEmittedAtIndexZero : Obligations.StartIsEmittedAtIndexZero := by
  intro s colors rest hm hq
  refine ⟨fun ha => ?_, fun e j ha => ?_⟩
  · exact emit_accepted hm hq (wordAt_zero colors) (by simp) ha (Nat.zero_le _)
  · rw [← take_bytes_markerWord]
    exact emit_failed hm hq (wordAt_zero colors) (by simp) ha

/-- Settles O26: the word due at index i+1 is the frame of device i, whose fields are the operation's. -/
theorem frameIsEmittedForItsDevice : Obligations.FrameIsEmittedForItsDevice := by
  intro s colors i r g b rest hm hq hc
  obtain ⟨hi, hci⟩ := List.getElem?_eq_some_iff.mp hc
  have hw : wordAt colors (i + 1) = some (deviceFrame ⟨r, g, b⟩) := by rw [wordAt_frame colors i hi, hci]
  refine ⟨fun ha => ?_, fun e j ha => ?_⟩
  · exact emit_accepted hm hq hw (by simp [← frameWord_topComplement, topComplement, hi]) ha hi
  · exact emit_failed hm hq hw (by simp [← frameWord_topComplement, topComplement, hi]) ha

/-- Settles O27: the word due at index N+1 is the marker, and it is the last word. -/
theorem endIsEmittedAtTheLastIndex : Obligations.EndIsEmittedAtTheLastIndex := by
  intro s colors rest hm hq
  refine ⟨fun ha => ?_, fun e j ha => ?_⟩
  · exact emit_accepted_last hm hq (by simp) ha
  · rw [← take_bytes_markerWord]
    exact emit_failed hm hq (wordAt_last colors) (by simp) ha

/-- A command takes effect in `{Holding, Idle}` (rule R87). -/
theorem accept_of_idle {o : Offer} {effect : Over.State E → Over.State E} {s : Over.State E} (hm : s.mode = .holding)
    (hq : s.seq = .idle) : accept o effect s = .next (effect s) := by
  simp [accept, hm, hq]

/-- Settles O21: RELEASE takes effect, and its response is the handle. -/
theorem releaseHandsBack : Obligations.ReleaseHandsBack :=
  fun _ hm hq => ⟨accept_of_idle hm hq, rfl, rfl, rfl⟩

/-! ### Port ENC -/

/-- Settles O46, by induction on the number of steps: the next of them serves the next input. -/
theorem encPortIsServedInEveryState : Obligations.EncPortIsServedInEveryState := by
  intro E m
  induction m with
  | zero => intro s _; simp
  | succ m ih =>
    intro s hlen
    obtain ⟨x, later, hx⟩ := List.exists_cons_of_length_pos (Nat.zero_lt_of_lt hlen)
    have hstep : stepOf s = .next (putResult (encResult x) { s with encInputs := later }) :=
      stepOf_of_fetch (fetch_enc hx)
    have hlater : m ≤ later.length := by simpa [hx] using hlen
    rw [runSteps_succ_of_next hstep, ih _ hlater]
    simp [putResult, hx, encResult, deviceFrame, unpackColor, Word.bytes]

/-! ### The response to a command -/

/-- The response that ends a transaction (rules R57, R82): Ok, or the transport's own error value. -/
def responseTo : TxInput E → Response E
  | .ok => .ok
  | .fail e _ => .err e

@[simp] theorem responseTo_handleVal (a : TxInput E) : (responseTo a).handleVal = none := by
  cases a <;> rfl

theorem responseTo_eq_err {a : TxInput E} {e : E} (h : responseTo a = .err e) : ∃ j, a = .fail e j := by
  cases a with
  | ok => cases h
  | fail e' j => cases h; exact ⟨j, rfl⟩

/-- The status and the error value of the response that ends a transaction. -/
theorem responseTo_fields (a : TxInput E) :
    (a = .ok ∧ (responseTo a).status = some 0#1 ∧ (responseTo a).errVal = none) ∨
      ∃ e j, a = .fail e j ∧ (responseTo a).status = some 1#1 ∧ (responseTo a).errVal = some e := by
  cases a with
  | ok => exact .inl ⟨rfl, rfl, rfl⟩
  | fail e j => exact .inr ⟨e, j, rfl, rfl, rfl⟩

/-- What an operation that goes on does to the responses, with what else of the state tells the three cases apart. -/
inductive Responds (i : Instr) (s t : Over.State E) : Prop where
  /-- No command completes: a transaction that runs goes on. -/
  | silent : t.responses = s.responses → t.mode = s.mode → (∀ colors k, s.seq = .run colors k → t.seq ≠ .idle) →
      Responds i s t
  /-- A transaction ends with answer `a`. -/
  | ended (colors : List ColorTriple) (k : Nat) (a : TxInput E) :
      s.seq = .run colors k → t.seq = .idle → s.answers = a :: t.answers →
      t.responses = s.responses ++ [responseTo a] → Responds i s t
  /-- RELEASE takes effect. -/
  | handedBack : i = .release → s.mode = .holding → s.seq = .idle → t.mode = .released →
      t.responses = s.responses ++ [.handle s.xport] → Responds i s t

/-- A write responds exactly when it ends its transaction. -/
theorem emit_responds {due : List ColorTriple → Nat → Word → Bool} {i : Instr} {s t : Over.State E}
    (h : emit due s = .next t) : Responds i s t := by
  obtain ⟨colors, k, w, a, rest, -, hq, -, -, ha, rfl⟩ := emit_next h
  obtain ⟨rfl, -, he⟩ | ⟨rfl, -, he⟩ | ⟨e, j, rfl, he⟩ :=
    afterAnswer_cases colors k a (memWrite w a { s with answers := rest })
  · rw [he]
    exact .ended colors k .ok hq rfl ha rfl
  · rw [he]
    exact .silent rfl rfl fun _ _ _ hidle => by cases hidle
  · rw [he]
    exact .ended colors k (.fail e j) hq rfl ha rfl

/-- A command that waits gives no response, and one that takes effect gives that of its effect. -/
theorem accept_responds {o : Offer} {effect : Over.State E → Over.State E} {i : Instr} {s t : Over.State E}
    (heffect : s.mode = .holding → s.seq = .idle → Responds i s (effect s)) (h : accept o effect s = .next t) :
    Responds i s t := by
  obtain ⟨hm, ⟨colors, k, hq, rfl⟩ | ⟨hq, rfl⟩⟩ := accept_next h
  · exact .silent rfl rfl fun _ _ _ hidle => by cases hq.symm.trans hidle
  · exact heffect hm hq

theorem beginTransaction_responds (i : Instr) (colors : List ColorTriple) (s : Over.State E) :
    Responds i s (beginTransaction colors s) :=
  .silent rfl rfl fun _ _ _ hidle => by cases hidle

theorem putResult_responds (i : Instr) (bytes : List Byte) (s : Over.State E) : Responds i s (putResult bytes s) :=
  .silent rfl rfl fun _ _ hq hidle => by cases hq.symm.trans hidle

/-- Every operation but NEW responds in one of the three ways. -/
theorem execOf_responds {i : Instr} {s t : Over.State E} (h : execOf i s = .next t)
    (hnew : ∀ transport, i ≠ .new transport) : Responds i s t := by
  cases i with
  | start => exact emit_responds h
  | frame nb ng nr b g r => exact emit_responds h
  | endMarker => exact emit_responds h
  | writeStep => exact emit_responds h
  | transmit w => exact emit_responds h
  | new transport => exact absurd rfl (hnew transport)
  | encodeDeviceFrame r g b => cases h; exact putResult_responds ..
  | encodeTransaction colors => cases h; exact putResult_responds ..
  | setColors colors => exact accept_responds (fun _ _ => beginTransaction_responds ..) h
  | setColor r g b => exact accept_responds (fun _ _ => beginTransaction_responds ..) h
  | release => exact accept_responds (fun hm hq => .handedBack rfl hm hq rfl rfl) h

/-- Settles O45, by the three things an operation can do to the responses. -/
theorem oneResponsePerCommand : Obligations.OneResponsePerCommand := by
  intro i s t h hnew
  rw [exec_eq_execOf] at h
  cases execOf_responds h hnew with
  | silent hresp hmode hrun =>
    have hnone : ∀ r, t.responses ≠ s.responses ++ [r] := by simp [hresp]
    refine ⟨⟨fun ⟨r, hr⟩ => absurd hr (hnone r), ?_⟩, fun _ => hresp, fun e he => absurd he (hnone _),
      fun r hr => absurd hr (hnone r)⟩
    rintro (⟨⟨colors, k, hq⟩, hidle⟩ | ⟨hhold, hrel⟩)
    · exact absurd hidle (hrun colors k hq)
    · rw [hmode, hhold] at hrel
      cases hrel
  | ended colors k a hq hidle ha hresp =>
    refine ⟨⟨fun _ => .inl ⟨⟨colors, k, hq⟩, hidle⟩, fun _ => ⟨_, hresp⟩⟩, fun hno => absurd ⟨_, hresp⟩ hno,
      fun e he => ?_, fun r hr => ⟨fun _ _ _ => ?_, fun hq' => nomatch hq.symm.trans hq'⟩⟩
    · obtain ⟨j, rfl⟩ := responseTo_eq_err (a := a) (e := e) (by simpa [hresp] using he)
      exact ⟨j, ha⟩
    · obtain rfl : responseTo a = r := by simpa [hresp] using hr
      refine ⟨responseTo_handleVal a, ?_⟩
      obtain ⟨rfl, hfields⟩ | ⟨e, j, rfl, hfields⟩ := responseTo_fields a
      · exact .inl ⟨ha, hfields⟩
      · exact .inr ⟨e, j, ha, hfields⟩
  | handedBack hi hm hq hrel hresp =>
    refine ⟨⟨fun _ => .inr ⟨hm, hrel⟩, fun _ => ⟨_, hresp⟩⟩, fun hno => absurd ⟨_, hresp⟩ hno,
      fun e he => ?_, fun r hr => ⟨fun _ _ hq' => (nomatch hq.symm.trans hq'), fun _ => ?_⟩⟩
    · cases List.append_cancel_left (hresp.symm.trans he)
    · obtain rfl : Response.handle s.xport = r := by simpa [hresp] using hr
      exact ⟨hi, rfl, rfl, rfl⟩

end Sys2Proof.Machine

/-!
SUPPORT. The prefix byte as a table and as a sum of its fields, a transaction as the list of its words, and the two functions
of the FrameEncoder.
-/

namespace Sys2Proof
open Machine

/-! ### The table of prefixes -/

/-- The table of rule R71: its entry at `i` is `0xFF - i`. -/
def prefixTableEntries : List Byte := (List.range 64).map (fun i => BitVec.ofNat 8 (255 - i))

/-- The table read by the tops of blue, green and red (rule R71). -/
theorem prefixTableEntries_at_tops (r g b : Byte) :
    prefixTableEntries[16 * (b.toNat / 64) + 4 * (g.toNat / 64) + r.toNat / 64]? = some (prefixByte r g b) := by
  have hi : 16 * (b.toNat / 64) + 4 * (g.toNat / 64) + r.toNat / 64 < 64 := by omega
  rw [prefixTableEntries, List.getElem?_map, List.getElem?_range hi, Option.map_some, Option.some_inj]
  apply BitVec.eq_of_toNat_eq
  rw [BitVec.toNat_ofNat, toNat_prefixByte]
  omega

/-- A byte is the prefix of a colour exactly when its fields are `one` and the complements of the tops (rules R52, R53). -/
theorem eq_prefixByte_iff (p r g b : Byte) :
    p = prefixByte r g b ↔
      p.extractLsb' 6 2 = 3#2 ∧ p.extractLsb' 4 2 = topComplement b ∧ p.extractLsb' 2 2 = topComplement g ∧
        p.extractLsb' 0 2 = topComplement r := by
  rw [prefixByte_eq_append, byte_eq_append_iff]

/-- Every 2-bit field is the complement of some channel's top bits. -/
theorem exists_topComplement_eq (x : BitVec 2) : ∃ v : Byte, topComplement v = x :=
  ⟨~~~x ++ 0#6, by rw [topComplement, BitVec.extractLsb'_append_eq_left, BitVec.not_not]⟩

theorem topComplement_inj (v v' : Byte) : topComplement v = topComplement v' ↔ v.extractLsb' 6 2 = v'.extractLsb' 6 2 :=
  BitVec.not_inj

/-- The prefixes are the bytes whose field `one` is 0b11: the other fields are free (rule R71). -/
theorem exists_prefixByte_eq_iff (p : Byte) : (∃ r g b, prefixByte r g b = p) ↔ p.extractLsb' 6 2 = 3#2 := by
  constructor
  · rintro ⟨r, g, b, rfl⟩
    exact (prefixByte_fields r g b).1
  · intro hone
    obtain ⟨b, hb⟩ := exists_topComplement_eq (p.extractLsb' 4 2)
    obtain ⟨g, hg⟩ := exists_topComplement_eq (p.extractLsb' 2 2)
    obtain ⟨r, hr⟩ := exists_topComplement_eq (p.extractLsb' 0 2)
    exact ⟨r, g, b, ((eq_prefixByte_iff p r g b).mpr ⟨hone, hb.symm, hg.symm, hr.symm⟩).symm⟩

/-- Field `one` of a byte is 0b11 exactly from 0xC0 on. -/
theorem topBits_eq_three_iff (p : Byte) : p.extractLsb' 6 2 = 3#2 ↔ 0xC0 ≤ p.toNat := by
  rw [← BitVec.toNat_inj, BitVec.extractLsb'_toNat, Nat.shiftRight_eq_div_pow, BitVec.toNat_ofNat]
  omega

/-- Settles O3: the literal table computes to its entries `0xFF - i`, and a prefix is known by its four fields. -/
theorem prefixTable : Obligations.PrefixTable := by
  refine ⟨prefixTableEntries_at_tops, toNat_prefixByte,
    fun p => (exists_prefixByte_eq_iff p).trans (topBits_eq_three_iff p), fun r g b r' g' b' => ?_⟩
  obtain ⟨hone, hnb, hng, hnr⟩ := prefixByte_fields r g b
  simp only [eq_prefixByte_iff, hone, hnb, hng, hnr, true_and, topComplement_inj]

/-! ### The arithmetic of the encoder -/

/-- Rule R73: a field shifted to its place in the prefix byte loses no bit. -/
theorem toNat_topField_shiftLeft (v : Byte) {n : Nat} (hn : n ≤ 6) :
    (topField v <<< n).toNat = 2 ^ n * (topField v).toNat := by
  have hfield : (topField v).toNat < 2 ^ 2 := by rw [toNat_topField]; omega
  have hlt : (topField v).toNat * 2 ^ n < 2 ^ 8 := by
    calc (topField v).toNat * 2 ^ n < 2 ^ 2 * 2 ^ n := Nat.mul_lt_mul_of_pos_right hfield (Nat.two_pow_pos n)
      _ = 2 ^ (2 + n) := (Nat.pow_add ..).symm
      _ ≤ 2 ^ 8 := Nat.pow_le_pow_right (by decide) (by omega)
  rw [BitVec.toNat_shiftLeft, Nat.shiftLeft_eq, Nat.mod_eq_of_lt hlt, Nat.mul_comm]

/-- Settles O4: each shift as a product or a quotient, and the prefix as a number. -/
theorem encoderArithmeticLaws : Obligations.EncoderArithmeticLaws := by
  refine ⟨fun v => ?_, fun v => ?_, fun r g b => ?_⟩
  · have hshift : (v >>> 6).toNat = v.toNat / 64 := by rw [BitVec.toNat_ushiftRight, Nat.shiftRight_eq_div_pow]
    exact ⟨BitVec.toNat_not, hshift, by omega⟩
  · have hfield := toNat_topField v
    have h4 := toNat_topField_shiftLeft v (n := 4) (by decide)
    have h2 := toNat_topField_shiftLeft v (n := 2) (by decide)
    refine ⟨?_, h4, ?_, h2, ?_⟩ <;> omega
  · rw [toNat_prefixByte, toNat_topField_shiftLeft b (n := 4) (by decide), toNat_topField_shiftLeft g (n := 2) (by decide)]
    simp only [toNat_topField]
    omega

/-! ### The fields of the prefix byte, masked -/

/-- A 2-bit field of a byte, shifted down and masked. -/
theorem shiftRight_and_three (x : Byte) (i : Nat) : (x >>> i) &&& 0b11#8 = (x.extractLsb' i 2).setWidth 8 := by
  ext j hj
  interval_cases j <;> simp

theorem and_topMask (x : Byte) : x &&& 0b11000000#8 = (x.extractLsb' 6 2).setWidth 8 <<< 6 := by
  ext j hj
  interval_cases j <;> simp

/-- The encoder's field of a channel is its 2-bit complement (rules R52, R53). -/
theorem topField_eq_setWidth (v : Byte) : topField v = (topComplement v).setWidth 8 := by
  apply BitVec.eq_of_toNat_eq
  rw [BitVec.toNat_setWidth, toNat_topField, toNat_topComplement]
  omega

/-- Properties P1 and P2 of rule R75: the mask keeps the field `one`, and the other fields are the channels' own. -/
theorem prefixByte_masked_fields (r g b : Byte) :
    prefixByte r g b &&& 0b11000000#8 = 0b11000000#8 ∧ (prefixByte r g b >>> 4) &&& 0b11#8 = topField b ∧
      (prefixByte r g b >>> 2) &&& 0b11#8 = topField g ∧ prefixByte r g b &&& 0b11#8 = topField r := by
  obtain ⟨hone, hnb, hng, hnr⟩ := prefixByte_fields r g b
  have hlow := shiftRight_and_three (prefixByte r g b) 0
  rw [BitVec.ushiftRight_zero] at hlow
  simp only [topField_eq_setWidth]
  exact ⟨by rw [and_topMask, hone]; rfl, by rw [shiftRight_and_three, hnb], by rw [shiftRight_and_three, hng],
    by rw [hlow, hnr]⟩

/-! ### The parts of a transaction -/

theorem take_transaction_start (colors : List ColorTriple) : (transaction colors).take 4 = markerWord.bytes :=
  take_drop_transaction (wordAt_zero colors)

theorem drop_transaction_last (colors : List ColorTriple) :
    (transaction colors).drop (4 * (colors.length + 1)) = markerWord.bytes := by
  have hlen : ((transaction colors).drop (4 * (colors.length + 1))).length ≤ 4 := by simp; omega
  rw [← take_drop_transaction (wordAt_last colors), List.take_of_length_le hlen]

/-- Device `i` has the four bytes at offset `4 + 4i` (rules R35, R72). -/
theorem take_drop_transaction_frame {colors : List ColorTriple} {i : Nat} {c : ColorTriple} (hc : colors[i]? = some c) :
    ((transaction colors).drop (4 + 4 * i)).take 4 = (deviceFrame c).bytes := by
  obtain ⟨hi, rfl⟩ := List.getElem?_eq_some_iff.mp hc
  rw [Nat.add_comm, ← Nat.mul_succ]
  exact take_drop_transaction (wordAt_frame colors i hi)

/-- Settles O8: P1 to P3 are the fields of a frame, P4 and P5 the words of a transaction. -/
theorem encoderProperties : Obligations.EncoderProperties :=
  ⟨fun r g b => ⟨⟨prefixByte r g b, rfl, prefixByte_masked_fields r g b⟩, rfl⟩, rfl,
    fun cs => ⟨length_transaction cs, take_transaction_start cs, drop_transaction_last cs,
      fun _ _ => take_drop_transaction_frame⟩⟩

/-! ### The functions of the FrameEncoder -/

/-- The words at the first `m` indices are the first `m` words of the transaction. -/
theorem filterMap_wordAt_range (colors : List ColorTriple) (m : Nat) :
    (List.range m).filterMap (wordAt colors) = (transactionWords colors).take m := by
  induction m with
  | zero => rfl
  | succ m ih =>
    rw [List.range_succ, List.filterMap_append, ih, List.take_add_one, ← wordAt_eq_getElem?]
    cases h : wordAt colors m <;> simp [h]

/-- A transaction is its words from index 0 to N+1, one after another (rule R72). -/
theorem transaction_eq_flatMap_wordAt (colors : List ColorTriple) :
    transaction colors = ((List.range (colors.length + 2)).filterMap (wordAt colors)).flatMap Word.bytes := by
  rw [transaction_eq_flatMap_words, filterMap_wordAt_range, List.take_of_length_le (length_transactionWords colors).le]

/-- Settles O5: the result is put out in every state, and its first byte is the prefix formula. -/
theorem encodeDeviceFrameCompletes : Obligations.EncodeDeviceFrameCompletes := fun _ _ _ _ => rfl

/-- Settles O6: the result is put out in every state, and the transaction is the list of its words. -/
theorem encodeTransactionCompletes : Obligations.EncodeTransactionCompletes := by
  intro colors s
  rw [← transaction_eq_flatMap_wordAt]
  rfl

end Sys2Proof

/-!
SUPPORT. The rows of the transition table operation by operation, whole commands in their three outcomes, and a transaction
that the transport does not answer.
-/

namespace Sys2Proof.Machine

variable {E : Type}

/-! ### The rows of the transition table -/

/-- A write that goes on is row T3, T4 or T5, by the answer and by whether the word is the last. -/
theorem emit_tableRow {due : List ColorTriple → Nat → Word → Bool} {i : Instr} {s t : Over.State E}
    (hdue : ∀ colors k w, due colors k w = true → Emits i colors k w) (h : emit due s = .next t) : TableRow i s t := by
  obtain ⟨colors, k, w, a, rest, hm, hq, hw, hd, ha, rfl⟩ := emit_next h
  have hemits := hdue colors k w hd
  obtain ⟨hk, -⟩ := wordAt_cases hw
  obtain ⟨rfl, rfl, he⟩ | ⟨rfl, hlast, he⟩ | ⟨e, j, rfl, he⟩ :=
    afterAnswer_cases colors k a (memWrite w a { s with answers := rest })
  · obtain rfl : markerWord = w := by simpa using hw
    rw [he]
    exact .lastAccepted i colors rest s hemits hm hq ha
  · rw [he]
    exact .wordAccepted i colors k w rest s hemits hm hq (by omega) hw ha
  · rw [he]
    exact .wordFailed i colors k w e j rest s hemits hm hq hk hw ha

/-- A command that goes on waits, which is row T8, or takes effect. -/
theorem accept_tableRow {o : Offer} {effect : Over.State E → Over.State E} {i : Instr} {s t : Over.State E}
    (hi : i = .release ∨ ∃ operand, i.canonical = .setColors operand) (ho : encode i = some (.offer o))
    (heffect : s.mode = .holding → s.seq = .idle → TableRow i s (effect s)) (h : accept o effect s = .next t) :
    TableRow i s t := by
  obtain ⟨hm, ⟨colors, k, hq, rfl⟩ | ⟨hq, rfl⟩⟩ := accept_next h
  · exact .waits i o colors k s hi ho hm hq
  · exact heffect hm hq

/-- An operation that is SET_COLORS of `colors` (rule R84), and has its record, goes on by row T2 or T8. -/
theorem accept_setColors_tableRow {colors : List ColorTriple} {i : Instr} {s t : Over.State E}
    (hi : i.canonical = .setColors colors) (ho : encode i = some (.offer (cmdSetColors colors)))
    (h : accept (cmdSetColors colors) (beginTransaction colors) s = .next t) : TableRow i s t :=
  accept_tableRow (.inr ⟨colors, hi⟩) ho (.accepted i colors s hi) h

/-- Every operation that goes on does so by a row of the table, for every type of error values. -/
theorem execOf_tableRow {i : Instr} {s t : Over.State E} (h : execOf i s = .next t) : TableRow i s t := by
  cases i with
  | start => exact emit_tableRow (by simp [Emits]) h
  | frame nb ng nr b g r => exact emit_tableRow (by simp [Emits, and_assoc]) h
  | endMarker => exact emit_tableRow (by simp [Emits]) h
  | writeStep => exact emit_tableRow (by simp [Emits]) h
  | transmit w => exact emit_tableRow (by simp [Emits]) h
  | new transport =>
    obtain ⟨hq, rfl⟩ := newOf_next h
    exact .begun transport s _ hq rfl rfl rfl rfl rfl rfl
  | encodeDeviceFrame r g b => cases h; exact .computed _ _ s (.inl ⟨r, g, b, rfl, rfl⟩)
  | encodeTransaction colors => cases h; exact .computed _ _ s (.inr ⟨colors, rfl, rfl⟩)
  | setColors colors => exact accept_setColors_tableRow rfl rfl h
  | setColor r g b => exact accept_setColors_tableRow rfl rfl h
  | release => exact accept_tableRow (.inl rfl) rfl (.handedBack s) h

/-- Settles O34, by the operations: a write, a command, NEW or a function of the encoder. -/
theorem onlyTheTablesTransitions : Obligations.OnlyTheTablesTransitions := by
  intro i s t h
  rw [exec_eq_execOf] at h
  exact execOf_tableRow h

/-! ### A transport that does not answer -/

/-- With port ENC empty and a word due that the transport does not answer, no step is made (rule R130). -/
theorem stepOf_silent {s : Over.State E} {colors : List ColorTriple} {k : Nat} {w : Word} (he : s.encInputs = [])
    (hm : s.mode = .holding) (hq : s.seq = .run colors k) (hw : wordAt colors k = some w) (ha : s.answers = []) :
    stepOf s = .fault .transportSilent :=
  (stepOf_of_fetch (fetch_write he hq)).trans (emit_silent hm hq hw rfl ha)

theorem runSteps_succ_of_fault {m : Nat} {s : Over.State E} {r : Fault} (h : stepOf s = .fault r) :
    runSteps (m + 1) s = .fault r := by
  simp [runSteps_succ, h]

/-- `t` is `s` but for what has been served at port ENC. -/
def SameButForEnc (s t : Over.State E) : Prop :=
  ∃ encInputs encOut, t = { s with encInputs := encInputs, encOut := encOut }

/-- While the transport is silent, the one move that is left is port ENC's. -/
theorem Move.sameButForEnc_of_silent {s t : Over.State E} {colors : List ColorTriple} {k : Nat} (hmove : Move s t)
    (hq : s.seq = .run colors k) (ha : s.answers = []) : SameButForEnc s t := by
  have hnot : s.seq ≠ .idle := by simp [hq]
  cases hmove with
  | encServed x later => exact ⟨later, s.encOut ++ [encResult x], rfl⟩
  | wordAnswered _ _ _ _ _ _ _ _ _ hans => cases ha.symm.trans hans
  | runBegun _ _ _ hidle => exact absurd hidle hnot
  | commandAccepted _ _ _ _ _ hidle => exact absurd hidle hnot
  | handedBack _ _ _ _ hidle => exact absurd hidle hnot

/-- However long a run goes on with a silent transport, it only serves port ENC. -/
theorem runSteps_sameButForEnc_of_silent {m : Nat} {s t : Over.State E} {colors : List ColorTriple} {k : Nat}
    (hq : s.seq = .run colors k) (ha : s.answers = []) (h : runSteps m s = .next t) : SameButForEnc s t := by
  refine runSteps_keeps (P := SameButForEnc s) ?_ ⟨s.encInputs, s.encOut, rfl⟩ h
  rintro _ u ⟨encInputs, encOut, rfl⟩ hstep
  obtain ⟨encInputs', encOut', rfl⟩ := (stepOf_move hstep).sameButForEnc_of_silent hq ha
  exact ⟨encInputs', encOut', rfl⟩

/-- Settles O41: every step serves port ENC, and what is left once it is drained is the unanswered write. -/
theorem silentTransportHoldsTheBlock : Obligations.SilentTransportHoldsTheBlock := by
  refine fun E s colors k hq ha => ⟨fun m t hrun => ?_, fun m hm hk hlong => ?_⟩
  · obtain ⟨encInputs, encOut, rfl⟩ := runSteps_sameButForEnc_of_silent hq ha hrun
    exact ⟨rfl, rfl, hq, rfl, rfl, rfl, rfl, ha, rfl⟩
  · obtain ⟨w, hw⟩ := exists_wordAt hk
    obtain ⟨extra, rfl⟩ := Nat.exists_eq_add_of_lt hlong
    rw [Nat.add_assoc, runSteps_add _ _ (runSteps_drains_enc s)]
    exact runSteps_succ_of_fault (stepOf_silent rfl hm hq hw ha)

/-! ### Whole commands, whatever the answers -/

/-- A SET_COLORS whose first `n` writes are accepted and whose end is not yet reached, from `{Holding, Idle}` and behind the
inputs of port ENC (rules R81, R82, R83). -/
theorem runSteps_setColors_accepted_words {s : Over.State E} {colors : List ColorTriple} {offers : List Offer} {n : Nat}
    {later : List (TxInput E)} (hm : s.mode = .holding) (hq : s.seq = .idle)
    (ho : s.offers = cmdSetColors colors :: offers) (hn : n ≤ colors.length + 1)
    (ha : s.answers = List.replicate n .ok ++ later) :
    runSteps (s.encInputs.length + (1 + n)) s = .next { s with
      seq := .run colors n, offers := offers, answers := later, writes := s.writes ++ okWrites colors n,
      bus := s.bus ++ (transaction colors).take (4 * n),
      encInputs := [], encOut := s.encOut ++ s.encInputs.map encResult, draws := s.draws + n } := by
  have hbegin := (runSteps_one _).trans (stepOf_setColors (s := { s with
    encInputs := [], encOut := s.encOut ++ s.encInputs.map encResult }) rfl hm hq ho)
  rw [runSteps_add _ _ (runSteps_drains_enc s), runSteps_add 1 _ hbegin]
  exact runSteps_accepted_words hn rfl hm rfl ha

/-- The first `n` answers are Ok, or the first that is not is a failure, or there is no such answer. -/
theorem answers_cases (n : Nat) (answers : List (TxInput E)) :
    (∃ later, answers = List.replicate n .ok ++ later) ∨
    (∃ (k : Nat) (e : E) (j : Fin 5) (later : List (TxInput E)),
      k < n ∧ answers = List.replicate k .ok ++ .fail e j :: later) ∨
    (∃ k, k < n ∧ answers = List.replicate k .ok) := by
  induction n generalizing answers with
  | zero => exact .inl ⟨answers, rfl⟩
  | succ n ih =>
    rcases answers with _ | ⟨_ | ⟨e, j⟩, rest⟩
    · exact .inr (.inr ⟨0, n.succ_pos, rfl⟩)
    · obtain ⟨later, rfl⟩ | ⟨k, e, j, later, hk, rfl⟩ | ⟨k, hk, rfl⟩ := ih rest
      · exact .inl ⟨later, rfl⟩
      · exact .inr (.inl ⟨k + 1, e, j, later, Nat.succ_lt_succ hk, rfl⟩)
      · exact .inr (.inr ⟨k + 1, Nat.succ_lt_succ hk, rfl⟩)
    · exact .inr (.inl ⟨0, e, j, rest, n.succ_pos, rfl⟩)

/-- The write at index `k` is accepted in one list of answers and fails in the other. -/
theorem replicate_ok_append_ne_failed {n k : Nat} (hk : k < n) (e : E) (j : Fin 5) (later later' : List (TxInput E)) :
    List.replicate n TxInput.ok ++ later ≠ List.replicate k .ok ++ .fail e j :: later' := by
  intro h
  have hat := congrArg (·[k]?) h
  simp [List.getElem?_append, hk] at hat

/-- A list of `n` answers or more is not a list of fewer. -/
theorem replicate_append_ne_shorter {n k : Nat} (hk : k < n) (later : List (TxInput E)) :
    List.replicate n TxInput.ok ++ later ≠ List.replicate k .ok := by
  intro h
  have hlen := congrArg List.length h
  simp at hlen
  omega

/-- A list that holds a failure is no list of Oks. -/
theorem failed_ne_replicate_ok (n k : Nat) (e : E) (j : Fin 5) (later : List (TxInput E)) :
    List.replicate k TxInput.ok ++ .fail e j :: later ≠ List.replicate n .ok := by
  intro h
  have hmem : TxInput.fail e j ∈ List.replicate n TxInput.ok := by simp [← h]
  cases List.eq_of_mem_replicate hmem

/-- Settles O42: the three runs, and the answers sorted by the first that is not Ok. -/
theorem wholeSetColorsOutcome : Obligations.WholeSetColorsOutcome := by
  refine ⟨fun E s colors offers hm hq ho => ⟨fun later => runSteps_setColors_accepted hm hq ho, ?_, ?_⟩,
    fun E colors answers => answers_cases (colors.length + 2) answers, ?_⟩
  · intro n e j later hn ha
    obtain ⟨w, hw⟩ := exists_wordAt (colors := colors) (k := n) (by omega)
    exact ⟨w, hw, runSteps_setColors_failed hm hq ho hw ha⟩
  · intro n hn ha
    have hn' : n ≤ colors.length + 1 := by omega
    obtain ⟨w, hw⟩ := exists_wordAt hn'
    refine ⟨_, w, rfl, runSteps_setColors_accepted_words hm hq ho hn' (by simp [ha]), hw,
      busObserved_of_not_waiting (waitingWord_eq_none (.inl hq)), ?_,
      fun m => runSteps_succ_of_fault (stepOf_silent rfl hm rfl hw rfl)⟩
    exact busObserved_of_waiting ((waitingWord_of_silent rfl rfl).trans hw)
  · exact fun E colors n n' e j later later' hn hn' => ⟨replicate_ok_append_ne_failed hn e j later later',
      replicate_append_ne_shorter hn later, failed_ne_replicate_ok n n' e j later'⟩

/-! ### The commands and the micro-step -/

theorem newOf_of_idle {h : Handle} {s : Over.State E} (hq : s.seq = .idle) : newOf h s = .next (construct h s) := by
  simp [newOf, hq]

/-- A reset in the middle of a run has no meaning (rule R120). -/
theorem newOf_of_run {h : Handle} {s : Over.State E} {colors : List ColorTriple} {k : Nat} (hq : s.seq = .run colors k) :
    newOf h s = .refused .resetInMidTransaction := by
  simp [newOf, hq]

/-- Settles O18: NEW is construction, and is refused while a transaction runs. -/
theorem newBeginsARun : Obligations.NewBeginsARun :=
  ⟨fun _ _ hq => newOf_of_idle hq, fun _ _ _ _ hq => newOf_of_run hq⟩

/-- Settles O19: SET_COLORS takes effect, and its effect is the new `seq`. -/
theorem setColorsAccepted : Obligations.SetColorsAccepted :=
  fun _ _ hm hq => accept_of_idle hm hq

/-- Settles O20: SET_COLOR offers the record of SET_COLORS, with the same effect. -/
theorem setColorIsSetColorsOfOne : Obligations.SetColorIsSetColorsOfOne :=
  fun _ _ _ _ => ⟨rfl, rfl, fun hm hq => accept_of_idle hm hq, rfl⟩

/-- A command waits while a transaction runs (rule R87). -/
theorem accept_of_run {o : Offer} {effect : Over.State E → Over.State E} {s : Over.State E} {colors : List ColorTriple}
    {k : Nat} (hm : s.mode = .holding) (hq : s.seq = .run colors k) :
    accept o effect s = .next { s with offers := o :: s.offers } := by
  simp [accept, hm, hq]

/-- Settles O22: each of the three commands waits with its own record. -/
theorem commandsWaitWhileRunning : Obligations.CommandsWaitWhileRunning :=
  fun _ _ _ hm hq => ⟨fun _ => accept_of_run hm hq, fun _ _ _ => accept_of_run hm hq, accept_of_run hm hq⟩

/-- Settles O24: WRITE_STEP is the write of whatever word is due, accepted, accepted as the last, or failed. -/
theorem writeStepOutcomes : Obligations.WriteStepOutcomes := by
  intro s colors k w rest hm hq hw
  refine ⟨fun ha hk => emit_accepted hm hq hw rfl ha hk, ?_, fun e j ha => emit_failed hm hq hw rfl ha⟩
  rintro ha rfl
  obtain rfl : markerWord = w := by simpa using hw
  exact emit_accepted_last hm hq rfl ha

/-- Settles O31: each of the five operations admits the word due, and the write of it waits. -/
theorem writeWaitsForTheTransport : Obligations.WriteWaitsForTheTransport := by
  intro s colors k w hm hq hw ha
  refine ⟨emit_silent hm hq hw rfl ha, emit_silent hm hq hw (by simp) ha, ?_, ?_, ?_⟩
  · rintro rfl
    exact emit_silent hm hq (wordAt_zero colors) (by simp) ha
  · rintro nb ng nr b g r hfirst hlast rfl
    exact emit_silent hm hq hw (by simp [hfirst, hlast]) ha
  · rintro rfl
    exact emit_silent hm hq (wordAt_last colors) (by simp) ha

end Sys2Proof.Machine

/-!
SUPPORT. What the host meets after RELEASE and after a failed write (spec/60_exceptions.md, rules R104, R106, R108).
-/

namespace Sys2Proof.Machine

variable {E : Type}

/-- A command is refused once the controller is Released (rules R87, R108). -/
theorem accept_of_released {o : Offer} {effect : Over.State E → Over.State E} {s : Over.State E} (hm : s.mode = .released) :
    accept o effect s = .refused .consumed := by
  simp [accept, hm]

theorem decodeOffer_cmdRelease : decodeOffer cmdRelease = .ok .release := rfl

/-- Settles O23: each command is refused, and a step that meets the record of one is the refused command. -/
theorem commandsRefusedAfterRelease : Obligations.CommandsRefusedAfterRelease := by
  intro s hm
  refine ⟨fun _ => accept_of_released hm, fun _ _ _ => accept_of_released hm, accept_of_released hm, ?_⟩
  rintro o offers he hq ho (rfl | ⟨colors, rfl⟩)
  · exact (step_of_fetch (fetch_offer he hq ho decodeOffer_cmdRelease)).trans (accept_of_released hm)
  · exact (step_of_fetch (fetch_offer he hq ho (decodeOffer_cmdSetColors colors))).trans (accept_of_released hm)

/-- Settles O32: the failed write leaves `{Holding, Idle}`, where SET_COLORS takes effect. -/
theorem failureLeavesTheControllerUsable : Obligations.FailureLeavesTheControllerUsable :=
  fun _ _ _ _ _ _ _ hm hq hw ha =>
    ⟨_, emit_failed hm hq hw rfl ha, hm, rfl, rfl, rfl, fun _ => accept_of_idle hm rfl⟩

end Sys2Proof.Machine
